-- ==== Sys2Proof/Word.lean ====
section
/-! DEFINITION. The word types of FE25519-ASR and the shape of a limb vector (spec/00_scope.md R6, R10, R12). -/

namespace Sys2Proof

/-- One byte lane of the bus (20_memory.md R56). -/
abbrev Byte := BitVec 8

/-- A 32-bit pattern: a register, the data of a bus access, a command word (00_scope.md R10, R12). -/
abbrev Word := BitVec 32

/-- The two-bit operation selector OP of CTRL and of the latch (10_state.md R25, R36). -/
abbrev Op := BitVec 2

/-- The register offset of an access inside the 128-byte window (20_memory.md R51). -/
abbrev Offset := BitVec 7

/-- A limb vector: exactly ten limbs X[0]..X[9] (00_scope.md R6, R14). -/
structure Limbs (α : Type) where
  x0 : α
  x1 : α
  x2 : α
  x3 : α
  x4 : α
  x5 : α
  x6 : α
  x7 : α
  x8 : α
  x9 : α
deriving DecidableEq, Repr

/-- A file of ten 32-bit limb registers, as the register patterns (10_state.md R21 to R23). -/
abbrev LimbFile := Limbs Word

/-- A limb vector of signed integers, as the arithmetic reads it (00_scope.md R9, R13; 30_encoding.md R84). -/
abbrev LimbVec := Limbs Int

end Sys2Proof
end

