-- ==== Sys2Proof/Machine/Bus.lean ====
section
/-! DEFINITION. The bus side of the block: transactions, responses, the events of an execution, byte lanes and the register map (20_memory.md R50 to R58; 30_encoding.md R82). -/

namespace Sys2Proof.Machine

/-- A host access inside the register window, as the block's slave port sees it (30_encoding.md R82; 20_memory.md R55).
The address is given by its offset in the window (R51, log 1).
The data of a write is the list of its bytes, lowest address first, so its size n is the list's length (log 6). -/
inductive Access where
  /-- A read of `size` bytes at an offset. -/
  | read (off : Offset) (size : Nat)
  /-- A write of the given bytes at an offset. -/
  | write (off : Offset) (bytes : List Byte)
deriving DecidableEq, Repr

/-- The response that ends an access (20_memory.md R55, R57, R58). -/
inductive Response where
  /-- A write was performed (or ignored without error). -/
  | ack
  /-- A read returned this 32-bit pattern. -/
  | data (v : Word)
  /-- The access at this offset was refused with an error response. -/
  | busError (off : Offset)
deriving DecidableEq, Repr, Inhabited

/-- One atomic step that an execution may take (20_memory.md R62; 40_command.md R100; 70_reset_and_hazards.md R190, R191). -/
inductive Event where
  /-- A host access to the window. -/
  | access (x : Access)
  /-- The unit's turn: its completion step where that is enabled (R100, R105). -/
  | unit
  /-- The reset event, one step (R190, log 11). -/
  | reset
  /-- A reset together with a host access that overlaps it (R191, log 11). -/
  | resetAccess (x : Access)
deriving DecidableEq, Repr

/-- The registers of the window (20_memory.md R52). -/
inductive Reg where
  | a (i : Fin 10)
  | b (i : Fin 10)
  | r (i : Fin 10)
  | ctrl
  | status
deriving DecidableEq, Repr

/-- The offset the access names. -/
def Access.off (x : Access) : Offset :=
  match x with
  | .read off _ => off
  | .write off _ => off

/-- The number of bytes n of the access. -/
def Access.size (x : Access) : Nat :=
  match x with
  | .read _ n => n
  | .write _ bytes => bytes.length

/-- The read data of a response: a refused access returns 0x00000000 (20_memory.md R55). -/
def Response.readData (q : Response) : Word :=
  match q with
  | .ack => 0
  | .data v => v
  | .busError _ => 0

/-- The byte that lane k of the bus carries of a 32-bit value: bits 8k+7 to 8k (20_memory.md R56). -/
def lane (v : Word) (k : Nat) : Byte := v.extractLsb' (8 * k) 8

/-- The four byte lanes of a 32-bit value, lowest address first (20_memory.md R56). -/
def bytesOfWord (v : Word) : List Byte := [lane v 0, lane v 1, lane v 2, lane v 3]

/-- The 32-bit value of four byte lanes, little-endian (20_memory.md R56). -/
def wordOfLanes (b0 b1 b2 b3 : Byte) : Word := b3 ++ b2 ++ b1 ++ b0

/-- The 32-bit value of a four-byte access; no value for any other size (20_memory.md R53, R56). -/
def wordOfBytes (bytes : List Byte) : Option Word :=
  match bytes with
  | [b0, b1, b2, b3] => some (wordOfLanes b0 b1 b2 b3)
  | _ => none

/-- The register whose offset is four times k, for the 32 word offsets of the window (20_memory.md R52). -/
def Reg.atWord (k : Nat) : Reg :=
  if h : k < 10 then .a ⟨k, h⟩
  else if h : k < 20 then .b ⟨k - 10, by omega⟩
  else if h : k < 30 then .r ⟨k - 20, by omega⟩
  else if k = 30 then .ctrl
  else .status

/-- The register at a naturally aligned offset (20_memory.md R52, R54). -/
def Reg.ofOffset (off : Offset) : Reg := Reg.atWord (off.toNat / 4)

/-- The offset of a register (20_memory.md R52). -/
def Reg.off (g : Reg) : Offset :=
  match g with
  | .a i => BitVec.ofNat 7 (4 * i.val)
  | .b i => BitVec.ofNat 7 (0x28 + 4 * i.val)
  | .r i => BitVec.ofNat 7 (0x50 + 4 * i.val)
  | .ctrl => 0x78#7
  | .status => 0x7C#7

end Sys2Proof.Machine
end

