-- ==== Sys2Proof/Machine/HostSyntax.lean ====
section
/-! DEFINITION. The notation of host programs: lines and pseudo-instructions (30_encoding.md R88, R89). It is not part of the block (R88, log 10). -/

namespace Sys2Proof.Machine

/-- What a WR line writes: a 32-bit pattern, or a host variable as FMOVRA does (30_encoding.md R88, R89). -/
inductive HostValue where
  | lit (v : Word)
  | var (x : Nat)
deriving DecidableEq, Repr

/-- One line of a host program (30_encoding.md R88). Variables and labels are numbered (log 10). -/
inductive HostLine where
  /-- `WR <reg>, <value>`. -/
  | wr (g : Reg) (v : HostValue)
  /-- `RD <reg> -> <name>`. -/
  | rd (g : Reg) (x : Nat)
  /-- `<label>:`. -/
  | label (l : Nat)
  /-- `BNZ <name>[k], <label>`: branch if bit k of the variable is 1. -/
  | bnz (x : Nat) (k : Fin 32) (l : Nat)
  /-- `BZ <name>[k], <label>`: branch if bit k of the variable is 0. -/
  | bz (x : Nat) (k : Fin 32) (l : Nat)
deriving DecidableEq, Repr

/-- A pseudo-instruction of host programs (30_encoding.md R89). -/
inductive Pseudo where
  | fadd
  | fsub
  | fred
  | fsetop (k : Op)
  | fclr
  /-- `FWAIT -> s`; `w` is the label of its expansion. -/
  | fwait (s : Nat) (w : Nat)
  | flda (x : LimbFile)
  | fldb (x : LimbFile)
  /-- `FRDR -> (r0, ..., r9)`: the names of the ten variables. -/
  | frdr (names : Limbs Nat)
  /-- `FMOVRA`; `t` is the host's variable for the copy. -/
  | fmovra (t : Nat)
deriving DecidableEq, Repr

end Sys2Proof.Machine
end

