-- ==== Sys2Proof/Syntax.lean ====
section
/-! DEFINITION. The command forms of FE25519-ASR: one constructor per row of spec/opcode_table.json (30_encoding.md R81, R85). -/

namespace Sys2Proof

/-- What a 32-bit write to CTRL decodes to (30_encoding.md R81).
A command has no register field and no immediate (R83), so only SETOP carries an operand, the two bits it stores.
Bits 30:2 of the word take no part in decoding (R81) and are not in the syntax (log 9). -/
inductive Instr where
  /-- SETOP: START = 0, only CTRL.OP is set (40_command.md R109). -/
  | setop (op : Op)
  /-- ADD (41_addsub.md R121). -/
  | add
  /-- SUB (41_addsub.md R123). -/
  | sub
  /-- REDUCE (42_reduce.md R146). -/
  | reduce
  /-- RESERVED3: START = 1 with the reserved OP 0b11 (40_command.md R103). -/
  | reserved3
deriving DecidableEq, Repr

end Sys2Proof
end

