-- ==== Sys2Proof/WellFormed.lean ====
section
/-! DEFINITION. Which terms of the syntax are well formed: every command form is (30_encoding.md R81), and a host program is when its labels are used properly (R88). -/

namespace Sys2Proof

/-- A command form is well formed whatever its operand: decoding is total and every word stands for a form (30_encoding.md R81), and the two bits of SETOP may hold any value (40_command.md R109). -/
def Instr.wf (i : Instr) : Bool :=
  match i with
  | .setop _ => true
  | .add => true
  | .sub => true
  | .reduce => true
  | .reserved3 => true

namespace Machine

/-- The labels that mark a line of a host program, in order. -/
def hostLabels (p : List HostLine) : List Nat :=
  p.filterMap fun line =>
    match line with
    | .label l => some l
    | .wr _ _ => none
    | .rd _ _ => none
    | .bnz _ _ _ => none
    | .bz _ _ _ => none

/-- Check: no two lines of a host program carry one label, so that a branch names one line (30_encoding.md R88). -/
def labelsUnique (p : List HostLine) : Bool := decide (hostLabels p).Nodup

/-- Check: every branch of a host program goes to a label that marks a line of it (30_encoding.md R88). -/
def branchesMarked (p : List HostLine) : Bool :=
  p.all fun line =>
    match line with
    | .bnz _ _ l => (hostLabels p).contains l
    | .bz _ _ l => (hostLabels p).contains l
    | .wr _ _ => true
    | .rd _ _ => true
    | .label _ => true

/-- Check: a variable that a line uses was read by an RD line above it (30_encoding.md R88); `known` are the variables read so far. -/
def usesRead (known : List Nat) (p : List HostLine) : Bool :=
  match p with
  | [] => true
  | .wr _ (.lit _) :: rest => usesRead known rest
  | .wr _ (.var x) :: rest => known.contains x && usesRead known rest
  | .rd _ x :: rest => usesRead (x :: known) rest
  | .label _ :: rest => usesRead known rest
  | .bnz x _ _ :: rest => known.contains x && usesRead known rest
  | .bz x _ _ :: rest => known.contains x && usesRead known rest

/-- A well-formed host program. -/
def hostProgramWf (p : List HostLine) : Bool := labelsUnique p && branchesMarked p && usesRead [] p

end Machine

end Sys2Proof
end

