-- ==== Sys2Proof/Decode.lean ====
section
/-! DEFINITION. Decoding a CTRL write value, the encoder, and decoding the bytes of a CTRL write (30_encoding.md R80, R81, R85). -/

namespace Sys2Proof

/-- DecodeCtrl: total on every 32-bit value; v[30:2] takes no part (30_encoding.md R81). -/
def decodeCtrl (v : Word) : Instr :=
  if v[31] = false then .setop (v.extractLsb' 0 2)
  else
    match v.extractLsb' 0 2 with
    | 0b00#2 => .add
    | 0b01#2 => .sub
    | 0b10#2 => .reduce
    | 0b11#2 => .reserved3

/-- The canonical word of a form, its ignored bits 0 (30_encoding.md R80, R85; log 9). -/
def encode (i : Instr) : Word :=
  match i with
  | .setop op => op.setWidth 32
  | .add => 0x80000000#32
  | .sub => 0x80000001#32
  | .reduce => 0x80000002#32
  | .reserved3 => 0x80000003#32

/-- Why bytes are no command. -/
inductive DecodeReject where
  /-- A command is exactly one 32-bit write: four bytes (30_encoding.md R87; 20_memory.md R53). -/
  | notFourBytes (n : Nat)
deriving DecidableEq, Repr

/-- What the bytes of a CTRL write, lowest address first, decode to (20_memory.md R56; 30_encoding.md R81, R87). -/
def decodeBytes (bytes : List Byte) : Except DecodeReject Instr :=
  match Machine.wordOfBytes bytes with
  | some v => .ok (decodeCtrl v)
  | none => .error (.notFourBytes bytes.length)

/-- The instruction the decoder reads from the table word w of nbits bits: its bits above nbits are 0, and its bytes are laid out as the bus carries them. -/
def decodeTableWord (nbits w : Nat) : Option Instr :=
  match decodeBytes (Machine.bytesOfWord (BitVec.ofNat 32 (w % 2 ^ nbits))) with
  | .ok i => some i
  | .error _ => none

end Sys2Proof
end

