-- ==== Sys2Proof/Machine/Operands.lean ====
section
/-! DEFINITION. Limb vectors as operands: indexing, the limb widths and weights, and reading registers as signed limbs (00_scope.md R6 to R16; 30_encoding.md R83, R84). -/

namespace Sys2Proof

/-- X[i] (00_scope.md R6). -/
def Limbs.get {α : Type} (x : Limbs α) (i : Fin 10) : α :=
  match i with
  | 0 => x.x0
  | 1 => x.x1
  | 2 => x.x2
  | 3 => x.x3
  | 4 => x.x4
  | 5 => x.x5
  | 6 => x.x6
  | 7 => x.x7
  | 8 => x.x8
  | 9 => x.x9

/-- `X[i] <- v` (00_scope.md R14). -/
def Limbs.set {α : Type} (x : Limbs α) (i : Fin 10) (v : α) : Limbs α :=
  match i with
  | 0 => { x with x0 := v }
  | 1 => { x with x1 := v }
  | 2 => { x with x2 := v }
  | 3 => { x with x3 := v }
  | 4 => { x with x4 := v }
  | 5 => { x with x5 := v }
  | 6 => { x with x6 := v }
  | 7 => { x with x7 := v }
  | 8 => { x with x8 := v }
  | 9 => { x with x9 := v }

/-- The vector whose limb i is f i. -/
def Limbs.ofFn {α : Type} (f : Fin 10 → α) : Limbs α :=
  ⟨f 0, f 1, f 2, f 3, f 4, f 5, f 6, f 7, f 8, f 9⟩

/-- f applied to each limb. -/
def Limbs.map {α β : Type} (f : α → β) (x : Limbs α) : Limbs β := Limbs.ofFn fun i => f (x.get i)

/-- The vector with every limb v. -/
def Limbs.all {α : Type} (v : α) : Limbs α := Limbs.ofFn fun _ => v

/-- The pattern of an integer mod 2^32: bits32 (00_scope.md R12). -/
def bits32 (n : Int) : Word := BitVec.ofInt 32 n

/-- A pattern read as a signed integer: sint (00_scope.md R12). -/
def sint (v : Word) : Int := v.toInt

/-- A register file read as ten signed limbs (30_encoding.md R84). -/
def Limbs.sints (x : LimbFile) : LimbVec := x.map sint

/-- Ten signed limbs written into a register file (40_command.md R105). -/
def Limbs.patterns (x : LimbVec) : LimbFile := x.map bits32

/-- The nominal width s_i of limb i: 26 for even i, 25 for odd i (00_scope.md R7; 90_conflicts.md C5). -/
def width (i : Fin 10) : Nat := if i.val % 2 = 0 then 26 else 25

/-- The half threshold h_i = 2^(s_i − 1): 2^25 for even i, 2^24 for odd i (00_scope.md R7). -/
def half (i : Fin 10) : Int := if i.val % 2 = 0 then 33554432 else 16777216

/-- The exponent w_i of limb i's weight: w_0 = 0 and w_(i+1) = w_i + s_i (00_scope.md R8). -/
def weight : Nat → Nat
  | 0 => 0
  | i + 1 => weight i + (if i % 2 = 0 then 26 else 25)

/-- The prime p = 2^255 − 19 (00_scope.md R2). -/
def prime : Int := 2 ^ 255 - 19

/-- val(X) = Σ X[i]·2^(w_i) (00_scope.md R9). -/
def Limbs.value (x : LimbVec) : Int :=
  x.x0 * 2 ^ weight 0 + x.x1 * 2 ^ weight 1 + x.x2 * 2 ^ weight 2 + x.x3 * 2 ^ weight 3 +
    x.x4 * 2 ^ weight 4 + x.x5 * 2 ^ weight 5 + x.x6 * 2 ^ weight 6 + x.x7 * 2 ^ weight 7 +
    x.x8 * 2 ^ weight 8 + x.x9 * 2 ^ weight 9

/-- Zero: the register file with all limbs 0 (00_scope.md R16). -/
def Limbs.zero : LimbFile := ⟨0, 0, 0, 0, 0, 0, 0, 0, 0, 0⟩

/-- One: the register file with X[0] = 1 and all other limbs 0 (00_scope.md R16). -/
def Limbs.one : LimbFile := ⟨1, 0, 0, 0, 0, 0, 0, 0, 0, 0⟩

end Sys2Proof
end

