-- ==== Sys2Proof/Machine/Flags.lean ====
section
/-! DEFINITION. The overflow computation of every primitive (00_scope.md R13) and the packing of the STATUS and CTRL fields into their read patterns (10_state.md R25, R28). -/

namespace Sys2Proof.Machine

/-- wrap32(n) = sint(bits32(n)) (00_scope.md R12). -/
def wrap32 (n : Int) : Int := sint (bits32 n)

/-- The exact result t lies outside −2^31 .. 2^31 − 1 (00_scope.md R13). -/
def outOfRange (t : Int) : Bool := decide (t < -2147483648) || decide (2147483647 < t)

/-- What a checked primitive returns: the wrapped value, and whether it sets ovf (00_scope.md R13). -/
structure Checked where
  val : Int
  ovf : Bool
deriving DecidableEq, Repr

/-- Narrow an exact result to 32 bits, noting whether it did not fit (00_scope.md R13). -/
def narrow (t : Int) : Checked := ⟨wrap32 t, outOfRange t⟩

/-- addw (00_scope.md R13). -/
def addw (a b : Int) : Checked := narrow (a + b)

/-- subw (00_scope.md R13). -/
def subw (a b : Int) : Checked := narrow (a - b)

/-- mulw (00_scope.md R13). -/
def mulw (a b : Int) : Checked := narrow (a * b)

/-- shlw: c · 2^s (00_scope.md R13). -/
def shlw (c : Int) (s : Nat) : Checked := narrow (c * (2 ^ s : Nat))

/-- asr: floor(t / 2^s), never overflows (00_scope.md R13); the divisor is positive, so `/` on Int is the floor. -/
def asr (t : Int) (s : Nat) : Int := t / (2 ^ s : Nat)

/-- One bit as a one-bit vector. -/
def bit (b : Bool) : BitVec 1 := BitVec.ofBool b

/-- The read pattern of STATUS: BUSYERR ‖ ILL ‖ OVF ‖ DONE ‖ BUSY, zero-extended (10_state.md R28, R34). -/
def statusPattern (busyErr ill ovf done busy : Bool) : Word :=
  (bit busyErr ++ bit ill ++ bit ovf ++ bit done ++ bit busy).setWidth 32

/-- The read pattern of CTRL: OP zero-extended, START and bits 30:2 read 0 (10_state.md R25 to R27). -/
def ctrlPattern (op : Op) : Word := op.setWidth 32

end Sys2Proof.Machine
end

