-- ==== Sys2Proof/Config.lean ====
section
/-! DEFINITION. What an implementation or a platform fixes: the OPEN parameters of 00_scope.md R11 and the values the spec leaves to the platform. None has a body that a proof could see. -/

namespace Sys2Proof

/-- The number of 128-byte windows below the block's own: FE_BASE / 0x80 (00_scope.md R11; log 1). -/
opaque Config.feWindow : Nat

/-- FE_BASE: the bus address of register offset 0x00, OPEN, a multiple of 0x80 (00_scope.md R11; 20_memory.md R50). -/
def Config.feBase : Nat := 0x80 * Config.feWindow

/-- One less than FE_LATENCY (log 5). -/
opaque Config.feLatencyLessOne : Nat

/-- FE_LATENCY: cycles from an accepted command to its completion, OPEN, at least 1 (00_scope.md R11).
No rule of the model depends on its value (40_command.md R107; log 5). -/
def Config.feLatency : Nat := Config.feLatencyLessOne + 1

/-- FREE VALUE: the bus response the platform defines for an access that overlaps a reset (70_reset_and_hazards.md R191; log 4).
The first argument is the count of such responses so far. -/
opaque Config.platformResponse : Nat → Machine.Access → Machine.Response

end Sys2Proof
end

