-- ==== Sys2Proof/Machine/State.lean ====
section
/-! DEFINITION. The state of FE25519-ASR: all that 10_state.md R20 lists, and three fields of the model's own (the schedule, the latest bus response, a counter). Also the reasons a step can stop, and the state after reset (R41). -/

namespace Sys2Proof.Machine

/-- The whole state (10_state.md R20). -/
structure State where
  /-- Operand file A (R21). -/
  a : LimbFile
  /-- Operand file B (R22). -/
  b : LimbFile
  /-- Result file R (R23). -/
  r : LimbFile
  /-- CTRL.OP (R25). -/
  ctrlOp : Op
  /-- STATUS.BUSY (R29). -/
  busy : Bool
  /-- STATUS.DONE (R30). -/
  done : Bool
  /-- STATUS.OVF (R31). -/
  ovf : Bool
  /-- STATUS.ILL (R32). -/
  ill : Bool
  /-- STATUS.BUSYERR (R33). -/
  busyErr : Bool
  /-- LAT_OP (R36). -/
  latOp : Op
  /-- LAT_A (R36). -/
  latA : LimbFile
  /-- LAT_B (R36). -/
  latB : LimbFile
  /-- MODEL'S OWN: the events still to come, in the order they are taken (log 2). -/
  pending : List Event
  /-- MODEL'S OWN: the bus response to the latest host access, none before the first (log 3). -/
  response : Option Response
  /-- MODEL'S OWN: how often the free value Config.platformResponse was used (log 4). -/
  openCount : Nat
deriving DecidableEq, Repr

/-- Why a step stops with a fault. -/
inductive Fault where
  /-- Raised by the completion step where LAT_OP = 0b11, for which 40_command.md R106 gives no function.
  Safe: R106 says it cannot occur, and no state reached from reset has it (log 7). -/
  | latchedOpReserved
deriving DecidableEq, Repr

/-- Why an instruction has no meaning. -/
inductive Refusal where
  /-- Raised by an arm of exec whose instruction has no meaning yet; safe (no arm does so). -/
  | notModelled (mnemonic : String)
deriving DecidableEq, Repr

/-- The state right after reset (10_state.md R41; 70_reset_and_hazards.md R190), with nothing scheduled and no access made yet (log 2, log 3, log 4). -/
def State.reset : State :=
  { a := Limbs.zero
    b := Limbs.zero
    r := Limbs.zero
    ctrlOp := 0b00#2
    busy := false
    done := false
    ovf := false
    ill := false
    busyErr := false
    latOp := 0b00#2
    latA := Limbs.zero
    latB := Limbs.zero
    pending := []
    response := none
    openCount := 0 }

end Sys2Proof.Machine
end

