-- ==== Sys2Proof/Machine/Ops.lean ====
section
/-! DEFINITION. The shared operations on the state: reading a register, recording and acknowledging an error, acceptance, the issue of a command, reset (10_state.md R35, R41; 20_memory.md R57; 40_command.md R101 to R104; 60_exceptions.md R161 to R165). -/

namespace Sys2Proof.Machine

/-! ### Reading registers -/

/-- What a read of a register returns (20_memory.md R57). -/
def readReg (g : Reg) (s : State) : Word :=
  match g with
  | .a i => s.a.get i
  | .b i => s.b.get i
  | .r i => s.r.get i
  | .ctrl => ctrlPattern s.ctrlOp
  | .status => statusPattern s.busyErr s.ill s.ovf s.done s.busy

/-! ### Errors: the block has no trap entry and no trap return (60_exceptions.md R164, R165); recording a cause and clearing it stand in their place. -/

/-- The error causes that STATUS records (60_exceptions.md R161). -/
inductive ErrorCause where
  | ovf
  | ill
  | busyErr
deriving DecidableEq, Repr

/-- The code of a recorded error: its bit position in STATUS (60_exceptions.md R161). -/
def ErrorCause.code (c : ErrorCause) : Nat :=
  match c with
  | .ovf => 2
  | .ill => 3
  | .busyErr => 4

/-- Taking an error: its sticky STATUS bit is set, and nothing else happens (60_exceptions.md R161, R164). -/
def recordError (c : ErrorCause) (s : State) : State :=
  match c with
  | .ovf => { s with ovf := true }
  | .ill => { s with ill := true }
  | .busyErr => { s with busyErr := true }

/-- A host write of v to STATUS: each of bits 2, 3, 4 that is 1 clears its flag; the others are ignored (10_state.md R34, R35). -/
def statusWrite (v : Word) (s : State) : State :=
  { s with
    ovf := s.ovf && !v[2]
    ill := s.ill && !v[3]
    busyErr := s.busyErr && !v[4] }

/-! ### Commands -/

/-- Every CTRL write stores its two low bits into CTRL.OP (10_state.md R25; 40_command.md R101). -/
def storeOp (op : Op) (s : State) : State := { s with ctrlOp := op }

/-- Accept(op): latch the operation and the operands, set BUSY, clear DONE (40_command.md R104). -/
def accept (op : Op) (s : State) : State :=
  { s with
    latOp := op
    latA := s.a
    latB := s.b
    busy := true
    done := false }

/-- A CTRL write with START = 1 that carries op (40_command.md R101): CTRL.OP is stored, then BUSY is checked before the reserved OP (60_exceptions.md R163). -/
def issue (op : Op) (s : State) : State :=
  if s.busy then recordError .busyErr (storeOp op s)
  else if op = 0b11#2 then recordError .ill (storeOp op s)
  else accept op (storeOp op s)

/-! ### Reset -/

/-- The reset event: every piece of the block's state takes its reset value (70_reset_and_hazards.md R190; 10_state.md R41).
What stands outside the block, the schedule, the host's latest response and the model's counter, is kept (log 2, log 3, log 4). -/
def resetBlock (s : State) : State :=
  { State.reset with
    pending := s.pending
    response := s.response
    openCount := s.openCount }

end Sys2Proof.Machine
end

