-- ==== Sys2Proof/Machine/AddSub.lean ====
section
/-! DEFINITION. Limb-wise addition and subtraction: the functions FE_ADD and FE_SUB and the meanings of ADD and SUB (41_addsub.md R120 to R123). -/

namespace Sys2Proof.Machine

/-- The OR of ten per-limb indications (41_addsub.md R127). -/
def anyLimb (x : Limbs Bool) : Bool :=
  x.x0 || x.x1 || x.x2 || x.x3 || x.x4 || x.x5 || x.x6 || x.x7 || x.x8 || x.x9

/-- A checked primitive applied limb by limb, no carry between limbs (41_addsub.md R120, R122, R127). -/
def limbwise (f : Int → Int → Checked) (a b : LimbVec) : LimbVec × Bool :=
  (Limbs.ofFn fun i => (f (a.get i) (b.get i)).val, anyLimb (Limbs.ofFn fun i => (f (a.get i) (b.get i)).ovf))

/-- FE_ADD (41_addsub.md R120). -/
def feAdd (a b : LimbVec) : LimbVec × Bool := limbwise addw a b

/-- FE_SUB (41_addsub.md R122). -/
def feSub (a b : LimbVec) : LimbVec × Bool := limbwise subw a b

/-- ADD: the CTRL write that issues it (41_addsub.md R121; 40_command.md R101). FE_ADD runs at completion. -/
def execAdd (s : State) : Host.Outcome State Fault Refusal := .next (issue 0b00#2 s)

/-- SUB: the CTRL write that issues it (41_addsub.md R123; 40_command.md R101). FE_SUB runs at completion. -/
def execSub (s : State) : Host.Outcome State Fault Refusal := .next (issue 0b01#2 s)

end Sys2Proof.Machine
end

