-- ==== Sys2Proof/Machine/Command.lean ====
section
/-! DEFINITION. The meanings of the control forms SETOP and RESERVED3 (40_command.md R103, R109). -/

namespace Sys2Proof.Machine

/-- SETOP: CTRL.OP takes the two bits, and nothing else happens, busy or not (40_command.md R109). -/
def execSetop (op : Op) (s : State) : Host.Outcome State Fault Refusal := .next (storeOp op s)

/-- RESERVED3: ILL while idle (40_command.md R103), BUSYERR while busy (R102). -/
def execReserved3 (s : State) : Host.Outcome State Fault Refusal := .next (issue 0b11#2 s)

end Sys2Proof.Machine
end

