-- ==== Sys2Proof/Machine/Reduce.lean ====
section
/-! DEFINITION. The two-pass carry-propagation reducer: the carry step, the passes, FE_REDUCE and the meaning of REDUCE (42_reduce.md R140 to R146). -/

namespace Sys2Proof.Machine

/-- The limb vector under reduction and the overflow bit of the computation (42_reduce.md R145; 00_scope.md R13). -/
structure Work where
  x : LimbVec
  ovf : Bool
deriving DecidableEq, Repr

/-- CarryStep(x, i): x[i] loses its carry, rounded to nearest; the carry is returned (42_reduce.md R140). -/
def carryStep (w : Work) (i : Fin 10) : Work × Int :=
  let t := addw (w.x.get i) (half i)
  let c := asr t.val (width i)
  let m := shlw c (width i)
  let d := subw (w.x.get i) m.val
  (⟨w.x.set i d.val, w.ovf || t.ovf || m.ovf || d.ovf⟩, c)

/-- `x[i] <- addw(x[i], c)`: a carry added to its destination limb (42_reduce.md R141 to R143). -/
def addCarry (w : Work) (i : Fin 10) (c : Int) : Work :=
  let t := addw (w.x.get i) c
  ⟨w.x.set i t.val, w.ovf || t.ovf⟩

/-- A carry step on limb 9 whose carry is folded into limb 0 multiplied by 19 (42_reduce.md R141, R143). -/
def foldTop (w : Work) : Work :=
  let wc := carryStep w 9
  let m := mulw 19 wc.2
  addCarry ⟨wc.1.x, wc.1.ovf || m.ovf⟩ 0 m.val

/-- Pass1 (42_reduce.md R141). -/
def pass1 (w : Work) : Work := foldTop w

/-- One link of the chain: a carry step on limb i, its carry added to limb i + 1 (42_reduce.md R142). -/
def chainStep (w : Work) (i : Fin 9) : Work :=
  let wc := carryStep w i.castSucc
  addCarry wc.1 i.succ wc.2

/-- Pass2Chain: limbs 0 to 8, strictly in this order (42_reduce.md R142). -/
def pass2Chain (w : Work) : Work := [0, 1, 2, 3, 4, 5, 6, 7, 8].foldl chainStep w

/-- Pass2Top: the fold of limb 9's carry, with no carry step on limb 0 after it (42_reduce.md R143; 90_conflicts.md C3). -/
def pass2Top (w : Work) : Work := foldTop w

/-- FE_REDUCE (42_reduce.md R144, R145). -/
def feReduce (a : LimbVec) : LimbVec × Bool :=
  let w := pass2Top (pass2Chain (pass1 ⟨a, false⟩))
  (w.x, w.ovf)

/-- REDUCE: the CTRL write that issues it (42_reduce.md R146; 40_command.md R101). FE_REDUCE runs at completion. -/
def execReduce (s : State) : Host.Outcome State Fault Refusal := .next (issue 0b10#2 s)

end Sys2Proof.Machine
end

