-- ==== Sys2Proof/Machine/Dispatch.lean ====
section
/-! DEFINITION. One arm per command form: what a CTRL write does once it is decoded (40_command.md R101). -/

namespace Sys2Proof.Machine

def exec (i : Instr) (s : State) : Host.Outcome State Fault Refusal :=
  match i with
  | .setop op => Sys2Proof.Machine.execSetop op s
  | .add => Sys2Proof.Machine.execAdd s
  | .sub => Sys2Proof.Machine.execSub s
  | .reduce => Sys2Proof.Machine.execReduce s
  | .reserved3 => Sys2Proof.Machine.execReserved3 s

end Sys2Proof.Machine
end

