-- ==== Sys2Proof/Machine/Unit.lean ====
section
/-! DEFINITION. The unit's completion step and the operation it performs (40_command.md R100, R105, R106). -/

namespace Sys2Proof.Machine

/-- Exec(op, a, b): the operation performed at completion; the reserved OP has none (40_command.md R106, log 7). -/
def feExec (op : Op) (a b : LimbVec) : Option (LimbVec × Bool) :=
  match op with
  | 0b00#2 => some (feAdd a b)
  | 0b01#2 => some (feSub a b)
  | 0b10#2 => some (feReduce a)
  | 0b11#2 => none

/-- What completion writes: the result into R, the overflow bit ORed into OVF, BUSY cleared, DONE set (40_command.md R105). -/
def writeResult (res : LimbVec × Bool) (s : State) : State :=
  { s with
    r := res.1.patterns
    ovf := s.ovf || res.2
    busy := false
    done := true }

/-- Complete() (40_command.md R105): it reads the latch alone. -/
def complete (s : State) : Host.Outcome State Fault Refusal :=
  match feExec s.latOp s.latA.sints s.latB.sints with
  | some res => .next (writeResult res s)
  | none => .fault .latchedOpReserved

/-- The unit's turn: completion is enabled exactly when STATUS.BUSY = 1 (40_command.md R100, R105); a turn that finds it not enabled passes (log 2). -/
def unitTurn (s : State) : Host.Outcome State Fault Refusal := if s.busy then complete s else .next s

end Sys2Proof.Machine
end

