-- ==== Sys2Proof/Machine/Access.lean ====
section
/-! DEFINITION. Host accesses and the atomic steps of an execution (20_memory.md R53 to R62; 40_command.md R100; 70_reset_and_hazards.md R190, R191). -/

namespace Sys2Proof.Machine

/-- An access must be naturally aligned: off[1:0] = 0b00 (20_memory.md R54). -/
def aligned (off : Offset) : Bool := off.extractLsb' 0 2 == 0b00#2

/-- A refused access: an error response and nothing else (20_memory.md R55). -/
def refuseAccess (off : Offset) (s : State) : Host.Outcome State Fault Refusal :=
  .next { s with response := some (.busError off) }

/-- BusRead(off): the register's pattern is the read data, and no state of the block changes (20_memory.md R57). -/
def busRead (off : Offset) (s : State) : Host.Outcome State Fault Refusal :=
  .next { s with response := some (.data (readReg (Reg.ofOffset off) s)) }

/-- BusWrite(off, v) (20_memory.md R58); a write of CTRL runs the form its value decodes to (40_command.md R101). -/
def busWrite (off : Offset) (v : Word) (s : State) : Host.Outcome State Fault Refusal :=
  match Reg.ofOffset off with
  | .a i => .next { s with a := s.a.set i v }
  | .b i => .next { s with b := s.b.set i v }
  | .r _ => .next s
  | .ctrl => exec (decodeCtrl v) s
  | .status => .next (statusWrite v s)

/-- Access(addr, n, kind, v): size and alignment are checked before anything else (20_memory.md R53 to R55; 60_exceptions.md R163). -/
def hostAccess (x : Access) (s : State) : Host.Outcome State Fault Refusal :=
  match x with
  | .read off n => if n = 4 ∧ aligned off then busRead off s else refuseAccess off s
  | .write off bytes =>
    match wordOfBytes bytes with
    | some v => if aligned off then busWrite off v { s with response := some .ack } else refuseAccess off s
    | none => refuseAccess off s

/-- A reset that a host access overlaps: the state after it is the reset state, and the response is the platform's, a free value (70_reset_and_hazards.md R191, log 4). -/
def overlappedReset (x : Access) (s : State) : State :=
  { resetBlock s with
    response := some (Config.platformResponse s.openCount x)
    openCount := s.openCount + 1 }

/-- One atomic step (20_memory.md R62; 40_command.md R100). -/
def perform (e : Event) (s : State) : Host.Outcome State Fault Refusal :=
  match e with
  | .access x => hostAccess x s
  | .unit => unitTurn s
  | .reset => .next (resetBlock s)
  | .resetAccess x => .next (overlappedReset x s)

/-- The step that is taken next: the head of the schedule; past its end a command in flight completes (the fairness of 40_command.md R107), and an idle block stays as it is (log 2). -/
def nextEvent (s : State) : Option Event :=
  match s.pending with
  | e :: _ => some e
  | [] => if s.busy then some .unit else none

end Sys2Proof.Machine
end

