-- ==== Sys2Proof/Machine/Step.lean ====
section
/-! DEFINITION. One step of the machine, and placing a command word where the next step takes it from. -/

namespace Sys2Proof.Machine

/-- One step: take the next event off the schedule and perform it (20_memory.md R62; log 2). -/
def step (s : State) : Host.Outcome State Fault Refusal :=
  match nextEvent s with
  | some e => perform e { s with pending := s.pending.tail }
  | none => .next s

/-- s with a 32-bit write of the word w to CTRL as the next event, its bits above nbits 0 (log 8).
The block fetches nothing (20_memory.md R65): a command is the data of a host write to CTRL (30_encoding.md R80). -/
def State.withFetchWord (s : State) (nbits w : Nat) : State :=
  { s with
    pending := .access (.write (Reg.off .ctrl) (bytesOfWord (BitVec.ofNat 32 (w % 2 ^ nbits)))) :: s.pending }

end Sys2Proof.Machine
end

