-- ==== Sys2Proof/Machine/HostProgram.lean ====
section
/-! DEFINITION. Host programs over the machine: the accesses of WR and RD, the expansions of the pseudo-instructions, and the host's own control flow (30_encoding.md R88, R89; log 10). The host is a bus master outside the block; nothing here is state of the block. -/

namespace Sys2Proof.Machine

/-! ### Lines as accesses -/

/-- `WR <reg>, <value>` = MemWrite(FE_BASE + off(reg), 4, value) (30_encoding.md R88). -/
def wrAccess (g : Reg) (v : Word) : Access := .write g.off (bytesOfWord v)

/-- `RD <reg>` = MemRead(FE_BASE + off(reg), 4) (30_encoding.md R88). -/
def rdAccess (g : Reg) : Access := .read g.off 4

/-! ### Pseudo-instructions -/

/-- The ten limb numbers, in limb order. -/
def limbOrder : List (Fin 10) := [0, 1, 2, 3, 4, 5, 6, 7, 8, 9]

/-- The expansion of a pseudo-instruction (30_encoding.md R89). -/
def expand (q : Pseudo) : List HostLine :=
  match q with
  | .fadd => [.wr .ctrl (.lit 0x80000000#32)]
  | .fsub => [.wr .ctrl (.lit 0x80000001#32)]
  | .fred => [.wr .ctrl (.lit 0x80000002#32)]
  | .fsetop k => [.wr .ctrl (.lit (k.setWidth 32))]
  | .fclr => [.wr .status (.lit 0x0000001C#32)]
  | .fwait s w => [.label w, .rd .status s, .bnz s 0 w]
  | .flda x => limbOrder.map fun i => .wr (.a i) (.lit (x.get i))
  | .fldb x => limbOrder.map fun i => .wr (.b i) (.lit (x.get i))
  | .frdr names => limbOrder.map fun i => .rd (.r i) (names.get i)
  | .fmovra t => limbOrder.flatMap fun i => [.rd (.r i) t, .wr (.a i) (.var t)]

/-! ### The host's control flow -/

/-- A host in the middle of a program: the lines, the number of the line it is at, and its variables, the latest assignment first. -/
structure HostRun where
  program : List HostLine
  line : Nat
  vars : List (Nat × Word)
deriving DecidableEq, Repr

/-- A host that starts a program. -/
def HostRun.start (p : List HostLine) : HostRun := ⟨p, 0, []⟩

/-- The value of a host variable, none where no RD line assigned it. -/
def HostRun.lookup (h : HostRun) (x : Nat) : Option Word := (h.vars.find? fun xv => xv.1 == x).map fun xv => xv.2

/-- The pattern a WR line writes. -/
def HostRun.value (h : HostRun) (v : HostValue) : Option Word :=
  match v with
  | .lit w => some w
  | .var x => h.lookup x

/-- The number of the line that a label marks. -/
def labelLine (p : List HostLine) (l : Nat) : Option Nat := p.findIdx? fun line => decide (line = .label l)

/-- Go on with the next line. -/
def HostRun.advance (h : HostRun) : HostRun := { h with line := h.line + 1 }

/-- Branch to a label where `taken`, else go on; none where no line carries the label. -/
def HostRun.branch (h : HostRun) (taken : Bool) (l : Nat) : Option HostRun :=
  if taken then (labelLine h.program l).map fun n => { h with line := n } else some h.advance

/-- Assign a variable. -/
def HostRun.assign (h : HostRun) (x : Nat) (v : Word) : HostRun := { h with vars := (x, v) :: h.vars }

/-- What the host does at its line. -/
inductive HostMove where
  /-- A bus access; `dest` is the variable that takes its read data. -/
  | bus (x : Access) (dest : Option Nat)
  /-- A step of the host's own, which the block does not see. -/
  | own (h : HostRun)
deriving DecidableEq, Repr

/-- The host's next move; none past the end of its program and at an ill-formed line (30_encoding.md R88). -/
def HostRun.move (h : HostRun) : Option HostMove :=
  match h.program[h.line]? with
  | none => none
  | some (.wr g v) => (h.value v).map fun w => .bus (wrAccess g w) none
  | some (.rd g x) => some (.bus (rdAccess g) (some x))
  | some (.label _) => some (.own h.advance)
  | some (.bnz x k l) => (h.lookup x).bind fun v => (h.branch (v[k.val]) l).map .own
  | some (.bz x k l) => (h.lookup x).bind fun v => (h.branch (!v[k.val]) l).map .own

/-- The host after its access was answered: the read data goes to the variable of an RD line. -/
def HostRun.answered (h : HostRun) (dest : Option Nat) (q : Option Response) : HostRun :=
  match dest, q with
  | some x, some q => (h.assign x q.readData).advance
  | some _, none => h.advance
  | none, _ => h.advance

/-! ### Host and block together -/

/-- A host that runs a program, and the block. -/
structure System where
  host : HostRun
  block : State
deriving DecidableEq, Repr

/-- Whose turn it is (40_command.md R100; 70_reset_and_hazards.md R190). -/
inductive Turn where
  | host
  | unit
  | reset
deriving DecidableEq, Repr

/-- The machine takes the event e at once, before whatever its schedule holds. -/
def stepWith (e : Event) (s : State) : Host.Outcome State Fault Refusal := step { s with pending := e :: s.pending }

/-- One turn of host and block; a turn of a host that has no move left changes nothing. -/
def System.turn (t : Turn) (y : System) : Host.Outcome System Fault Refusal :=
  match t with
  | .host =>
    match y.host.move with
    | none => .next y
    | some (.own h) => .next { y with host := h }
    | some (.bus x dest) =>
      match stepWith (.access x) y.block with
      | .next s => .next ⟨y.host.answered dest s.response, s⟩
      | .fault f => .fault f
      | .refused q => .refused q
  | .unit =>
    match stepWith .unit y.block with
    | .next s => .next { y with block := s }
    | .fault f => .fault f
    | .refused q => .refused q
  | .reset =>
    match stepWith .reset y.block with
    | .next s => .next { y with block := s }
    | .fault f => .fault f
    | .refused q => .refused q

/-- The turns of a schedule, one after another, stopping at the first fault or refusal. -/
def System.run (ts : List Turn) (y : System) : Host.Outcome System Fault Refusal :=
  match ts with
  | [] => .next y
  | t :: rest =>
    match y.turn t with
    | .next y' => System.run rest y'
    | .fault f => .fault f
    | .refused q => .refused q

/-- A list of events performed one after another (20_memory.md R62). -/
def performAll (es : List Event) (s : State) : Host.Outcome State Fault Refusal :=
  match es with
  | [] => .next s
  | e :: rest =>
    match perform e s with
    | .next s' => performAll rest s'
    | .fault f => .fault f
    | .refused q => .refused q

end Sys2Proof.Machine
end

