-- ==== Sys2Proof/Machine/Window.lean ====
section
/-! DEFINITION. The register window on the host's bus: which bus addresses reach the block, and at which offset (20_memory.md R50, R51; 00_scope.md R15). -/

namespace Sys2Proof.Machine

/-- The offset of a bus address in the window; an address outside it does not reach the block (20_memory.md R50, R51). -/
def windowOffset (addr : Nat) : Option Offset :=
  if Config.feBase ≤ addr ∧ addr ≤ Config.feBase + 0x7F then some (BitVec.ofNat 7 (addr - Config.feBase)) else none

/-- The bus address of an offset: FE_BASE + off (20_memory.md R51). -/
def busAddress (off : Offset) : Nat := Config.feBase + off.toNat

/-- MemRead(addr, n): the event of a host read of n bytes at a bus address, none where it does not reach the block (00_scope.md R15). -/
def memRead (addr n : Nat) : Option Event := (windowOffset addr).map fun off => .access (.read off n)

/-- MemWrite(addr, n, v): the event of a host write at a bus address, v given as its n bytes, lowest address first (00_scope.md R15). -/
def memWrite (addr : Nat) (bytes : List Byte) : Option Event :=
  (windowOffset addr).map fun off => .access (.write off bytes)

end Sys2Proof.Machine
end

