-- ==== Sys2Proof/Safety.lean ====
section
/-! DEFINITION. The terms that claims about the machine use: the invariant, the state after reset, what a host can see, bounds on limbs, and the carry propagation on unbounded integers and on wrapped values. -/

namespace Sys2Proof

/-! ### Bounds on limb vectors -/

/-- Every limb is a 32-bit signed integer (00_scope.md R10). -/
def Limbs.InRange (x : LimbVec) : Prop := ∀ i, -2147483648 ≤ x.get i ∧ x.get i ≤ 2147483647

/-- Every limb has magnitude at most m. -/
def Limbs.Within (m : Int) (x : LimbVec) : Prop := ∀ i, -m ≤ x.get i ∧ x.get i ≤ m

/-- Every limb i lies in −h_i .. h_i − 1, the set of fixed points of REDUCE (42_reduce.md R151). -/
def Limbs.Settled (x : LimbVec) : Prop := ∀ i, -half i ≤ x.get i ∧ x.get i < half i

namespace Machine

/-! ### The carry propagation on unbounded integers -/

/-- floor((x + h_i) / 2^(s_i)): the carry out of limb i where nothing overflows (42_reduce.md R140). -/
def exactCarry (i : Fin 10) (x : Int) : Int := (x + half i) / (2 ^ width i : Nat)

/-- A reduction on unbounded integers: its limbs, the carry of pass 1 and the ten carries of pass 2. -/
structure ExactReduction where
  limbs : LimbVec
  foldCarry : Int
  carries : LimbVec
deriving DecidableEq, Repr

/-- The two passes of 42_reduce.md R144 as one system of equations over the integers, with no wrapping: limb 9, then limbs 0 to 8 in turn, then limb 9 again. -/
def exactReduce (a : LimbVec) : ExactReduction :=
  let cf := exactCarry 9 a.x9
  let y0 := a.x0 + 19 * cf
  let c0 := exactCarry 0 y0
  let y1 := a.x1 + c0
  let c1 := exactCarry 1 y1
  let y2 := a.x2 + c1
  let c2 := exactCarry 2 y2
  let y3 := a.x3 + c2
  let c3 := exactCarry 3 y3
  let y4 := a.x4 + c3
  let c4 := exactCarry 4 y4
  let y5 := a.x5 + c4
  let c5 := exactCarry 5 y5
  let y6 := a.x6 + c5
  let c6 := exactCarry 6 y6
  let y7 := a.x7 + c6
  let c7 := exactCarry 7 y7
  let y8 := a.x8 + c7
  let c8 := exactCarry 8 y8
  let y9 := a.x9 - 33554432 * cf + c8
  let c9 := exactCarry 9 y9
  { limbs :=
      ⟨y0 - 67108864 * c0 + 19 * c9, y1 - 33554432 * c1, y2 - 67108864 * c2, y3 - 33554432 * c3,
        y4 - 67108864 * c4, y5 - 33554432 * c5, y6 - 67108864 * c6, y7 - 33554432 * c7,
        y8 - 67108864 * c8, y9 - 33554432 * c9⟩
    foldCarry := cf
    carries := ⟨c0, c1, c2, c3, c4, c5, c6, c7, c8, c9⟩ }

/-! ### The carry propagation on wrapped values, with the exact result of every primitive -/

/-- The unique integer in −2^31 .. 2^31 − 1 congruent to n mod 2^32 (00_scope.md R12). -/
def wrapped (n : Int) : Int := n.bmod (2 ^ 32)

/-- n lies outside −2^31 .. 2^31 − 1 (00_scope.md R13). -/
def DoesNotFit (n : Int) : Prop := n < -2147483648 ∨ 2147483647 < n

/-- What one carry step makes of a limb: the new limb, the carry, and the exact results that its primitives met. -/
structure TracedCarry where
  limb : Int
  carry : Int
  met : List Int
deriving DecidableEq, Repr

/-- The carry step of 42_reduce.md R140 on the value x of limb i: addw, asr, shlw, subw, each on the wrapped value before it. -/
def tracedCarry (i : Fin 10) (x : Int) : TracedCarry :=
  let t := x + half i
  let c := wrapped t / (2 ^ width i : Nat)
  let m := c * (2 ^ width i : Nat)
  let d := x - wrapped m
  { limb := wrapped d, carry := c, met := [t, m, d] }

/-- A reduction on wrapped values: its limbs, and the exact results that its primitives met, in order. -/
structure TracedReduction where
  limbs : LimbVec
  met : List Int
deriving DecidableEq, Repr

/-- The steps of 42_reduce.md R145 written out limb by limb: limb 9 and its fold, limbs 0 to 8 in turn, limb 9 again and its fold, each on the wrapped value that the steps before it left. -/
def tracedReduce (a : LimbVec) : TracedReduction :=
  let p := tracedCarry 9 a.x9
  let f := 19 * p.carry
  let y0 := a.x0 + wrapped f
  let q0 := tracedCarry 0 (wrapped y0)
  let y1 := a.x1 + q0.carry
  let q1 := tracedCarry 1 (wrapped y1)
  let y2 := a.x2 + q1.carry
  let q2 := tracedCarry 2 (wrapped y2)
  let y3 := a.x3 + q2.carry
  let q3 := tracedCarry 3 (wrapped y3)
  let y4 := a.x4 + q3.carry
  let q4 := tracedCarry 4 (wrapped y4)
  let y5 := a.x5 + q4.carry
  let q5 := tracedCarry 5 (wrapped y5)
  let y6 := a.x6 + q5.carry
  let q6 := tracedCarry 6 (wrapped y6)
  let y7 := a.x7 + q6.carry
  let q7 := tracedCarry 7 (wrapped y7)
  let y8 := a.x8 + q7.carry
  let q8 := tracedCarry 8 (wrapped y8)
  let y9 := p.limb + q8.carry
  let q9 := tracedCarry 9 (wrapped y9)
  let g := 19 * q9.carry
  let z0 := q0.limb + wrapped g
  { limbs := ⟨wrapped z0, q1.limb, q2.limb, q3.limb, q4.limb, q5.limb, q6.limb, q7.limb, q8.limb, q9.limb⟩
    met :=
      p.met ++ [f, y0] ++ q0.met ++ [y1] ++ q1.met ++ [y2] ++ q2.met ++ [y3] ++ q3.met ++ [y4] ++ q4.met ++
        [y5] ++ q5.met ++ [y6] ++ q6.met ++ [y7] ++ q7.met ++ [y8] ++ q8.met ++ [y9] ++ q9.met ++ [g, z0] }

/-- A chain of ADD (true) and SUB (false) steps from x: the last result, and whether any step overflowed (41_addsub.md R125). -/
def addSubChain (x : LimbVec) (steps : List (Bool × LimbVec)) : LimbVec × Bool :=
  match steps with
  | [] => (x, false)
  | (plus, y) :: rest =>
    let q := if plus then feAdd x y else feSub x y
    let rest := addSubChain q.1 rest
    (rest.1, q.2 || rest.2)

/-! ### States -/

/-- The invariant of the block: the latch never holds the reserved operation (40_command.md R106), and BUSY and DONE are never both set (10_state.md R30). -/
def State.Inv (s : State) : Prop := s.latOp ≠ 0b11#2 ∧ ¬(s.busy = true ∧ s.done = true)

/-- Every piece of the block's state has its reset value (10_state.md R41). -/
structure State.AtReset (s : State) : Prop where
  a_zero : ∀ i, s.a.get i = 0x00000000#32
  b_zero : ∀ i, s.b.get i = 0x00000000#32
  r_zero : ∀ i, s.r.get i = 0x00000000#32
  ctrlOp_add : s.ctrlOp = 0b00#2
  not_busy : s.busy = false
  not_done : s.done = false
  no_ovf : s.ovf = false
  no_ill : s.ill = false
  no_busyErr : s.busyErr = false
  latOp_zero : s.latOp = 0b00#2
  latA_zero : ∀ i, s.latA.get i = 0x00000000#32
  latB_zero : ∀ i, s.latB.get i = 0x00000000#32

/-- What is left of a state when the hidden latch is set aside: all that a host can see (10_state.md R36). -/
def State.eraseLatch (s : State) : State :=
  { s with
    latOp := 0b00#2
    latA := Limbs.zero
    latB := Limbs.zero }

/-- The state after a command op was issued while idle and has completed with result r and overflow bit o (40_command.md R101, R104, R105). -/
def State.afterCommand (s : State) (op : Op) (r : LimbFile) (o : Bool) : State :=
  { s with
    ctrlOp := op
    latOp := op
    latA := s.a
    latB := s.b
    r := r
    ovf := s.ovf || o
    busy := false
    done := true }

/-- The event resets the block (70_reset_and_hazards.md R190, R191). -/
def Event.isReset (e : Event) : Bool :=
  match e with
  | .access _ => false
  | .unit => false
  | .reset => true
  | .resetAccess _ => true

/-- The event is an accepted host write of v to the register g (20_memory.md R55, R58). -/
def Event.writes (e : Event) (g : Reg) (v : Word) : Prop := e = .access (.write g.off (bytesOfWord v))

end Machine

end Sys2Proof
end

