-- ==== Sys2Proof/Certificates/Slice0/Obligations.lean ====
section
/-! DEFINITION. The statements about FE25519-ASR that are handed to the provers. Each docstring names the rule of spec/ it formalises, or says that it is an inference or the model's choice. -/

open Sys2Proof Sys2Proof.Machine

/-! ## Encoding -/

/-- The canonical words of 30_encoding.md R85 and the word of vector IF-4 (95_test_vectors.md), as the bytes the bus carries, decode to the forms they stand for. -/
def Obligations.SampleWordsDecode : Prop :=
  decodeBytes [0x00#8, 0x00#8, 0x00#8, 0x80#8] = .ok .add ∧
  decodeBytes [0x01#8, 0x00#8, 0x00#8, 0x80#8] = .ok .sub ∧
  decodeBytes [0x02#8, 0x00#8, 0x00#8, 0x80#8] = .ok .reduce ∧
  decodeBytes [0x03#8, 0x00#8, 0x00#8, 0x80#8] = .ok .reserved3 ∧
  decodeBytes [0x02#8, 0x00#8, 0x00#8, 0x00#8] = .ok (.setop 0b10#2) ∧
  decodeBytes [0xFC#8, 0xFF#8, 0xFF#8, 0xFF#8] = .ok .add

/-- 30_encoding.md R81: the five lines of DecodeCtrl, and v[30:2] takes no part in decoding. -/
def Obligations.DecodeCtrlFollowsTheRule : Prop :=
  ∀ v : Word,
    (v[31] = false → decodeCtrl v = .setop (v.extractLsb' 0 2)) ∧
    (v[31] = true → v.extractLsb' 0 2 = 0b00#2 → decodeCtrl v = .add) ∧
    (v[31] = true → v.extractLsb' 0 2 = 0b01#2 → decodeCtrl v = .sub) ∧
    (v[31] = true → v.extractLsb' 0 2 = 0b10#2 → decodeCtrl v = .reduce) ∧
    (v[31] = true → v.extractLsb' 0 2 = 0b11#2 → decodeCtrl v = .reserved3) ∧
    ∀ v' : Word, v'[31] = v[31] → v'.extractLsb' 0 2 = v.extractLsb' 0 2 → decodeCtrl v' = decodeCtrl v

/-- Decoding an encoded form gives it back, as a word and as bytes (inference from 30_encoding.md R80, R81, R85; the encoder's canonical word is the model's choice, log 9). -/
def Obligations.EncodeThenDecode : Prop :=
  ∀ i : Instr, i.wf = true →
    decodeCtrl (encode i) = i ∧ decodeBytes (bytesOfWord (encode i)) = .ok i

/-- Encoding a decoded word gives the word with its ignored bits 30:2 cleared: no decoded bit is dropped (inference from 30_encoding.md R81, R85; log 9). -/
def Obligations.DecodeThenEncodeKeepsTheDecodedBits : Prop :=
  ∀ v : Word, encode (decodeCtrl v) = v &&& 0x80000003#32

/-- Bytes are a command exactly where they are four (inference from 30_encoding.md R87: every command is exactly one 32-bit CTRL write). -/
def Obligations.OnlyFourBytesAreACommand : Prop :=
  ∀ bytes : List Byte,
    (bytes.length = 4 → ∃ i, decodeBytes bytes = .ok i) ∧
    (bytes.length ≠ 4 → decodeBytes bytes = .error (.notFourBytes bytes.length))

/-! ## Steps -/

/-- The next event of the schedule is taken; past its end a command in flight completes and an idle block stays as it is (the model's form of 20_memory.md R62 and 40_command.md R107, log 2). -/
def Obligations.StepTakesTheNextEvent : Prop :=
  ∀ s : State,
    (∀ e rest, s.pending = e :: rest → step s = perform e { s with pending := rest }) ∧
    (s.pending = [] → s.busy = true → step s = perform .unit s) ∧
    (s.pending = [] → s.busy = false → step s = .next s)

/-- A step whose event is a write to CTRL (offset 0x78) of bytes that decode to a well-formed i is exec of i, with the event taken off the schedule and the write acknowledged (log 2, log 3). -/
def Obligations.StepRunsTheDecodedCommand : Prop :=
  ∀ (s : State) (bytes : List Byte) (rest : List Event) (i : Instr),
    s.pending = .access (.write 0x78#7 bytes) :: rest → decodeBytes bytes = .ok i → i.wf = true →
    step s = exec i { s with pending := rest, response := some .ack }

/-- Placing the encoding of a form makes the very next step run exactly that form (log 8). -/
def Obligations.StepRunsAnEncodedCommand : Prop :=
  ∀ (s : State) (i : Instr), i.wf = true →
    step (s.withFetchWord 32 (encode i).toNat) = exec i { s with response := some .ack }

/-! ## Reset -/

/-- 10_state.md R41: the value of every piece of state after reset, in State.reset and after a reset event in any state. -/
def Obligations.ResetValues : Prop :=
  State.reset.AtReset ∧ ∀ s : State, ∃ t, perform .reset s = .next t ∧ t.AtReset

/-- From 70_reset_and_hazards.md R190: reset restores the reset values in any state; a command in flight never completes (that the unit's turn then passes is the model's choice, log 2); and reset is the only event that cancels a command: any other event that ends one wrote its result. -/
def Obligations.ResetAbandonsTheCommandInFlight : Prop :=
  (∀ s : State, ∃ t, perform .reset s = .next t ∧ t.AtReset ∧ perform .unit t = .next t) ∧
  (∀ (e : Event) (s t : State), perform e s = .next t → s.busy = true → t.busy = false → e.isReset = false →
    e = .unit ∧ t.done = true ∧
      ∃ res, feExec s.latOp s.latA.sints s.latB.sints = some res ∧ t.r = res.1.patterns)

/-- 70_reset_and_hazards.md R191: an access that overlaps a reset gets some response and has no effect on the state after it, whatever the platform's response is. -/
def Obligations.AccessOverlappingResetHasNoEffect : Prop :=
  ∀ (s : State) (x : Access), ∃ t q, perform (.resetAccess x) s = .next t ∧ t.AtReset ∧ t.response = some q

/-! ## Commands -/

/-- 40_command.md R109: SETOP stores v[1:0] into CTRL.OP and does nothing else, busy or not; and its example. -/
def Obligations.SetopOnlyStoresOp : Prop :=
  (∀ v : Word, v &&& 0x80000000#32 = 0x00000000#32 → decodeCtrl v = .setop (v.extractLsb' 0 2)) ∧
  (∀ (op : Op) (s : State), exec (.setop op) s = .next { s with ctrlOp := op }) ∧
  (∀ s : State, ∃ t, perform (.access (.write 0x78#7 (bytesOfWord 0x00000002#32))) s = .next t ∧
    readReg .ctrl t = 0x00000002#32 ∧ readReg .status t = readReg .status s)

/-- 40_command.md R102: any command issued while BUSY = 1 is dropped: CTRL.OP is stored, BUSYERR is set, and nothing else changes; and its example. -/
def Obligations.CommandWhileBusyIsDropped : Prop :=
  (∀ (v : Word) (s : State), v[31] = true → s.busy = true →
    exec (decodeCtrl v) s = .next { s with ctrlOp := v.extractLsb' 0 2, busyErr := true }) ∧
  (∀ s : State, s.busy = true →
    exec .add s = .next { s with ctrlOp := 0b00#2, busyErr := true } ∧
    exec .sub s = .next { s with ctrlOp := 0b01#2, busyErr := true } ∧
    exec .reduce s = .next { s with ctrlOp := 0b10#2, busyErr := true } ∧
    exec .reserved3 s = .next { s with ctrlOp := 0b11#2, busyErr := true }) ∧
  (∀ s : State, s.busy = true →
    ∃ t, perform (.access (.write 0x78#7 (bytesOfWord 0x80000001#32))) s = .next t ∧
      t.busy = true ∧ t.busyErr = true ∧ readReg .ctrl t = 0x00000001#32)

/-- 40_command.md R103: RESERVED3 while idle stores 0b11 into CTRL.OP, sets ILL, and changes nothing else; and its example from reset. -/
def Obligations.Reserved3WhileIdleSetsIll : Prop :=
  (∀ v : Word, v &&& 0x80000003#32 = 0x80000003#32 → decodeCtrl v = .reserved3) ∧
  (∀ s : State, s.busy = false → exec .reserved3 s = .next { s with ctrlOp := 0b11#2, ill := true }) ∧
  (∃ t, perform (.access (.write 0x78#7 (bytesOfWord 0x80000003#32))) State.reset = .next t ∧
    readReg .status t = 0x00000008#32 ∧ readReg .ctrl t = 0x00000003#32)

/-- 40_command.md R101: what a write of v to CTRL does, as one atomic step, in the order of its checks. -/
def Obligations.CtrlWriteIsOneStep : Prop :=
  ∀ (v : Word) (s : State),
    perform (.access (.write 0x78#7 (bytesOfWord v))) s = exec (decodeCtrl v) { s with response := some .ack } ∧
    exec (decodeCtrl v) s =
      .next
        (if v[31] = false then { s with ctrlOp := v.extractLsb' 0 2 }
        else if s.busy = true then { s with ctrlOp := v.extractLsb' 0 2, busyErr := true }
        else if v.extractLsb' 0 2 = 0b11#2 then { s with ctrlOp := v.extractLsb' 0 2, ill := true }
        else
          { s with
            ctrlOp := v.extractLsb' 0 2
            latOp := v.extractLsb' 0 2
            latA := s.a
            latB := s.b
            busy := true
            done := false })

/-- 40_command.md R104: an accepted command latches its operation and both operand files, sets BUSY, clears DONE and changes nothing else; and no later host access changes the latch or the result of the command in flight. -/
def Obligations.AcceptanceLatchesTheOperands : Prop :=
  (∀ s : State, s.busy = false →
    exec .add s = .next { s with ctrlOp := 0b00#2, latOp := 0b00#2, latA := s.a, latB := s.b, busy := true, done := false } ∧
    exec .sub s = .next { s with ctrlOp := 0b01#2, latOp := 0b01#2, latA := s.a, latB := s.b, busy := true, done := false } ∧
    exec .reduce s =
      .next { s with ctrlOp := 0b10#2, latOp := 0b10#2, latA := s.a, latB := s.b, busy := true, done := false }) ∧
  (∀ (x : Access) (s t : State), s.busy = true → perform (.access x) s = .next t →
    t.busy = true ∧ t.latOp = s.latOp ∧ t.latA = s.latA ∧ t.latB = s.latB ∧
    ∀ s' t' : State, perform .unit s = .next s' → perform .unit t = .next t' → t'.r = s'.r)

/-- From 40_command.md R105: the completion step, enabled exactly when BUSY = 1, writes the result of the latched operation (R106) into R, ORs its overflow bit into OVF, clears BUSY, sets DONE and changes nothing else; that the unit's turn passes where BUSY = 0 is the model's choice (log 2). -/
def Obligations.CompletionWritesTheResult : Prop :=
  ∀ s : State,
    (s.busy = true → s.latOp = 0b00#2 → perform .unit s = .next
      { s with
        r := (feAdd s.latA.sints s.latB.sints).1.patterns
        ovf := s.ovf || (feAdd s.latA.sints s.latB.sints).2
        busy := false
        done := true }) ∧
    (s.busy = true → s.latOp = 0b01#2 → perform .unit s = .next
      { s with
        r := (feSub s.latA.sints s.latB.sints).1.patterns
        ovf := s.ovf || (feSub s.latA.sints s.latB.sints).2
        busy := false
        done := true }) ∧
    (s.busy = true → s.latOp = 0b10#2 → perform .unit s = .next
      { s with
        r := (feReduce s.latA.sints).1.patterns
        ovf := s.ovf || (feReduce s.latA.sints).2
        busy := false
        done := true }) ∧
    (s.busy = false → perform .unit s = .next s)

/-- 41_addsub.md R121: the ADD command: its encoding, the state after issue and completion with R[i] = wrap32(A[i] + B[i]) limb by limb and OVF ORed, its BUSYERR, its corner cases and its example. -/
def Obligations.AddCommand : Prop :=
  (∀ v : Word, v &&& 0x80000003#32 = 0x80000000#32 → decodeCtrl v = .add) ∧
  encode .add = 0x80000000#32 ∧
  (∀ s : State, s.busy = false → ∃ t, exec .add s = .next t ∧ t.busy = true ∧ t.done = false ∧
    perform .unit t = .next (s.afterCommand 0b00#2
      (Limbs.ofFn fun i => bits32 (sint (s.a.get i) + sint (s.b.get i)))
      (decide (∃ i, sint (s.a.get i) + sint (s.b.get i) < -2147483648 ∨
        2147483647 < sint (s.a.get i) + sint (s.b.get i))))) ∧
  (∀ s : State, s.busy = true → exec .add s = .next { s with ctrlOp := 0b00#2, busyErr := true }) ∧
  (∀ (a : LimbFile) (i : Fin 10), ((feAdd a.sints a.sints).1.patterns.get i) = bits32 (2 * sint (a.get i))) ∧
  (∀ b : LimbFile, (feAdd Limbs.zero.sints b.sints).1.patterns = b) ∧
  (∃ (a b : LimbFile) (i : Fin 10), 2 ^ width i < ((feAdd a.sints b.sints).1.get i).natAbs) ∧
  feAdd ⟨1, 2, 3, 4, 5, 6, 7, 8, 9, 10⟩ ⟨11, 12, 13, 14, 15, 16, 17, 18, 19, 20⟩ =
    (⟨12, 14, 16, 18, 20, 22, 24, 26, 28, 30⟩, false)

/-- The SUB command, from 41_addsub.md R122 and R123 (whose example the spec marks as derived): its encoding, the state after issue and completion with R[i] = wrap32(A[i] − B[i]) limb by limb and OVF ORed, its BUSYERR, its corner cases and its example. -/
def Obligations.SubCommand : Prop :=
  (∀ v : Word, v &&& 0x80000003#32 = 0x80000001#32 → decodeCtrl v = .sub) ∧
  encode .sub = 0x80000001#32 ∧
  (∀ s : State, s.busy = false → ∃ t, exec .sub s = .next t ∧ t.busy = true ∧ t.done = false ∧
    perform .unit t = .next (s.afterCommand 0b01#2
      (Limbs.ofFn fun i => bits32 (sint (s.a.get i) - sint (s.b.get i)))
      (decide (∃ i, sint (s.a.get i) - sint (s.b.get i) < -2147483648 ∨
        2147483647 < sint (s.a.get i) - sint (s.b.get i))))) ∧
  (∀ s : State, s.busy = true → exec .sub s = .next { s with ctrlOp := 0b01#2, busyErr := true }) ∧
  (∀ a : LimbFile, feSub a.sints a.sints = (Limbs.zero.sints, false)) ∧
  (∀ (b : LimbFile) (i : Fin 10),
    (feSub Limbs.zero.sints b.sints).1.patterns.get i = bits32 (-sint (b.get i))) ∧
  (∀ (a b : LimbVec) (i : Fin 10), a.get i = -2147483648 → b.get i = 1 →
    (feSub a b).1.get i = 2147483647 ∧ (feSub a b).2 = true) ∧
  (∀ (a b : LimbVec) (i : Fin 10), a.get i = 0 → b.get i = -2147483648 →
    (feSub a b).1.get i = -2147483648 ∧ (feSub a b).2 = true) ∧
  (feSub ⟨1, 2, 3, 4, 5, 6, 7, 8, 9, 10⟩ ⟨11, 12, 13, 14, 15, 16, 17, 18, 19, 20⟩).1.patterns =
    Limbs.all 0xFFFFFFF6#32

/-- The REDUCE command, from 42_reduce.md R145 and R146 (whose example the spec marks as derived): its encoding, the state after issue and completion with the result of FE_REDUCE and OVF ORed, its BUSYERR, its corner cases and its example. -/
def Obligations.ReduceCommand : Prop :=
  (∀ v : Word, v &&& 0x80000003#32 = 0x80000002#32 → decodeCtrl v = .reduce) ∧
  encode .reduce = 0x80000002#32 ∧
  (∀ s : State, s.busy = false → ∃ t, exec .reduce s = .next t ∧ t.busy = true ∧ t.done = false ∧
    perform .unit t = .next
      (s.afterCommand 0b10#2 (feReduce s.a.sints).1.patterns (feReduce s.a.sints).2)) ∧
  (∀ s : State, s.busy = true → exec .reduce s = .next { s with ctrlOp := 0b10#2, busyErr := true }) ∧
  feReduce (Limbs.all 0) = (Limbs.all 0, false) ∧
  (∀ (w : Work) (i : Fin 10), w.x.get i = half i → (carryStep w i).2 = 1) ∧
  (∀ (w : Work) (i : Fin 10), w.x.get i = -half i → (carryStep w i).2 = 0) ∧
  feReduce ⟨33554432, 0, 0, 0, 0, 0, 0, 0, 0, 0⟩ = (⟨-33554432, 1, 0, 0, 0, 0, 0, 0, 0, 0⟩, false) ∧
  feReduce ⟨67108845, 33554431, 67108863, 33554431, 67108863, 33554431, 67108863, 33554431, 67108863, 33554431⟩ =
    (Limbs.all 0, false) ∧
  (∀ a : LimbVec, a.InRange → a.get 9 = 0x7FFFFFFF → (feReduce a).2 = true) ∧
  feReduce ⟨67108864, 0, 0, 0, 0, 0, 0, 0, 0, 0⟩ = (⟨0, 1, 0, 0, 0, 0, 0, 0, 0, 0⟩, false)

/-- From 10_state.md R31, R35 (70_reset_and_hazards.md R200, marked derived by the spec): after OVF is cleared, a command that is issued while idle and completes leaves its own overflow bit in OVF. -/
def Obligations.OvfOfOneCommand : Prop :=
  ∀ (s : State) (v : Word), s.busy = false → v[2] = true →
    ∃ t, perform (.access (.write 0x7C#7 (bytesOfWord v))) s = .next t ∧
      (∃ u w, exec .add t = .next u ∧ perform .unit u = .next w ∧ w.ovf = (feAdd s.a.sints s.b.sints).2) ∧
      (∃ u w, exec .sub t = .next u ∧ perform .unit u = .next w ∧ w.ovf = (feSub s.a.sints s.b.sints).2) ∧
      (∃ u w, exec .reduce t = .next u ∧ perform .unit u = .next w ∧ w.ovf = (feReduce s.a.sints).2)

/-! ## Arithmetic -/

/-- The widths, half thresholds and weights of 00_scope.md R7 and R8 (whose intermediate weights the spec marks as derived). -/
def Obligations.LimbWidthsAndWeights : Prop :=
  (∀ i : Fin 10, width i = (if i.val % 2 = 0 then 26 else 25) ∧ half i = 2 ^ (width i - 1) ∧
    weight (i.val + 1) = weight i.val + width i) ∧
  (List.range 10).map weight = [0, 26, 51, 77, 102, 128, 153, 179, 204, 230] ∧ weight 9 + width 9 = 255

/-- 00_scope.md R13: each checked primitive returns the 32-bit integer congruent to the exact result and sets ovf exactly where the exact result does not fit; asr is the floor. -/
def Obligations.CheckedPrimitives : Prop :=
  (∀ a b : Int,
    (addw a b).val = (a + b).bmod (2 ^ 32) ∧
      ((addw a b).ovf = true ↔ a + b < -2147483648 ∨ 2147483647 < a + b) ∧
    (subw a b).val = (a - b).bmod (2 ^ 32) ∧
      ((subw a b).ovf = true ↔ a - b < -2147483648 ∨ 2147483647 < a - b) ∧
    (mulw a b).val = (a * b).bmod (2 ^ 32) ∧
      ((mulw a b).ovf = true ↔ a * b < -2147483648 ∨ 2147483647 < a * b)) ∧
  (∀ (c : Int) (n : Nat),
    (shlw c n).val = (c * 2 ^ n).bmod (2 ^ 32) ∧
      ((shlw c n).ovf = true ↔ c * 2 ^ n < -2147483648 ∨ 2147483647 < c * 2 ^ n)) ∧
  (∀ (t : Int) (n : Nat), asr t n * 2 ^ n ≤ t ∧ t < (asr t n + 1) * 2 ^ n)

/-- 41_addsub.md R120: FE_ADD adds limb by limb, wrapping each limb by itself, and ovf = 1 exactly when some exact sum does not fit. -/
def Obligations.FeAddIsLimbwise : Prop :=
  ∀ a b : LimbVec,
    (∀ i, (feAdd a b).1.get i = (a.get i + b.get i).bmod (2 ^ 32)) ∧
    ((feAdd a b).2 = true ↔ ∃ i, a.get i + b.get i < -2147483648 ∨ 2147483647 < a.get i + b.get i)

/-- 41_addsub.md R122: FE_SUB subtracts limb by limb, with no borrow and no bias, wrapping each limb by itself, and ovf = 1 exactly when some exact difference does not fit. -/
def Obligations.FeSubIsLimbwise : Prop :=
  ∀ a b : LimbVec,
    (∀ i, (feSub a b).1.get i = (a.get i - b.get i).bmod (2 ^ 32)) ∧
    ((feSub a b).2 = true ↔ ∃ i, a.get i - b.get i < -2147483648 ∨ 2147483647 < a.get i - b.get i)

/-- The value law of ADD and SUB, an inference of the spec (41_addsub.md R124): where ovf = 0 the values add and subtract as integers. -/
def Obligations.AddSubValueLaw : Prop :=
  ∀ a b : LimbVec,
    ((feAdd a b).2 = false → (feAdd a b).1.value = a.value + b.value) ∧
    ((feSub a b).2 = false → (feSub a b).1.value = a.value - b.value)

/-- Sufficient conditions for ovf = 0, an inference of the spec (41_addsub.md R125): operands in −2^30 .. 2^30 − 1, and the sum of two vectors within the bound of REDUCE outputs. -/
def Obligations.AddSubNoOverflowBound : Prop :=
  (∀ a b : LimbVec, (∀ i, -1073741824 ≤ a.get i ∧ a.get i ≤ 1073741823) →
    (∀ i, -1073741824 ≤ b.get i ∧ b.get i ≤ 1073741823) → (feAdd a b).2 = false ∧ (feSub a b).2 = false) ∧
  (∀ a b : LimbVec, a.Within 33554451 → b.Within 33554451 → (feAdd a b).2 = false)

/-- The chain rule, an inference of the spec (41_addsub.md R125; 70_reset_and_hazards.md R201): a chain of ADD and SUB over up to 63 REDUCE results never overflows, and over up to 61 the result stays within the bound of 42_reduce.md R149 and can be reduced without overflow. -/
def Obligations.ChainsOverReducedVectorsDoNotOverflow : Prop :=
  ∀ (x : LimbVec) (steps : List (Bool × LimbVec)),
    x.Within 33554451 → (∀ q ∈ steps, q.2.Within 33554451) →
    (steps.length + 1 ≤ 63 → (addSubChain x steps).2 = false) ∧
    (steps.length + 1 ≤ 61 → (addSubChain x steps).1.Within 2080374784 ∧ (feReduce (addSubChain x steps).1).2 = false)

/-- The carry step of 42_reduce.md R140 on every limb, overflowing or not: only x[i] changes; c is the floor of wrap32(x[i] + h)/2^s; x[i] becomes wrap32(x[i] − wrap32(c·2^s)); ovf is ORed with the three tests for an exact result that does not fit.
Then two inferences of the spec: where limb + half_threshold fits, the carry rounds x[i]/2^s to nearest and the limb comes to lie in −h .. h − 1 with no overflow noted (R140); c·2^s and 19·c always fit, and the difference does where the sum did (R149). -/
def Obligations.CarryStepRoundsToNearest : Prop :=
  ∀ (w : Work) (i : Fin 10),
    let x := w.x.get i
    let c := (carryStep w i).2
    (∀ j, j ≠ i → (carryStep w i).1.x.get j = w.x.get j) ∧
    (c * 2 ^ width i ≤ (x + half i).bmod (2 ^ 32) ∧ (x + half i).bmod (2 ^ 32) < (c + 1) * 2 ^ width i) ∧
    (carryStep w i).1.x.get i = (x - (c * 2 ^ width i).bmod (2 ^ 32)).bmod (2 ^ 32) ∧
    ((carryStep w i).1.ovf = true ↔ w.ovf = true ∨ DoesNotFit (x + half i) ∨ DoesNotFit (c * 2 ^ width i) ∨
      DoesNotFit (x - (c * 2 ^ width i).bmod (2 ^ 32))) ∧
    (-2147483648 ≤ x → x + half i ≤ 2147483647 →
      c * 2 ^ width i ≤ x + half i ∧ x + half i < (c + 1) * 2 ^ width i ∧
      (carryStep w i).1.x.get i = x - c * 2 ^ width i ∧
      -half i ≤ (carryStep w i).1.x.get i ∧ (carryStep w i).1.x.get i ≤ half i - 1 ∧
      (carryStep w i).1.ovf = w.ovf) ∧
    (¬DoesNotFit (c * 2 ^ width i) ∧ ¬DoesNotFit (19 * c) ∧
      (¬DoesNotFit (x + half i) → ¬DoesNotFit (x - (c * 2 ^ width i).bmod (2 ^ 32))))

/-- Where FE_REDUCE reports no overflow, its limbs are those of the carry chain on unbounded integers, taken in the order of 42_reduce.md R144: limb 9, limbs 0 to 8 in turn, limb 9 again (inference from R140 to R145). -/
def Obligations.ReduceComputesTheExactCarryChain : Prop :=
  ∀ a : LimbVec, a.InRange → (feReduce a).2 = false → (feReduce a).1 = (exactReduce a).limbs

/-- The value law of REDUCE, an inference of the spec (42_reduce.md R147): where ovf = 0, the value changes by (c_f + c_9)·p. -/
def Obligations.ReduceValueLaw : Prop :=
  ∀ a : LimbVec, a.InRange → (feReduce a).2 = false →
    (feReduce a).1.value = a.value - ((exactReduce a).foldCarry + (exactReduce a).carries.x9) * prime

/-- The output bounds of REDUCE, an inference of the spec (42_reduce.md R148), under the input bound of R149. -/
def Obligations.ReduceOutputBounds : Prop :=
  ∀ a : LimbVec, a.Within 2080374784 →
    (∀ i : Fin 10, i.val % 2 = 1 → -16777216 ≤ (feReduce a).1.get i ∧ (feReduce a).1.get i ≤ 16777215) ∧
    (∀ i : Fin 10, i.val % 2 = 0 → i ≠ 0 → -33554432 ≤ (feReduce a).1.get i ∧ (feReduce a).1.get i ≤ 33554431) ∧
    (-33554432 - 19 ≤ (feReduce a).1.get 0 ∧ (feReduce a).1.get 0 ≤ 33554431 + 19) ∧
    (feReduce a).1.Within 33554451

/-- The no-overflow bound of REDUCE, an inference of the spec (42_reduce.md R149): within 2^31 − 2^26 nothing overflows and the carries have the stated ranges; 2113928018 is the largest uniform bound. -/
def Obligations.ReduceNoOverflowBound : Prop :=
  (∀ a : LimbVec, a.Within 2080374784 →
    (feReduce a).2 = false ∧
    (-62 ≤ (exactReduce a).foldCarry ∧ (exactReduce a).foldCarry ≤ 62) ∧
    (∀ i : Fin 10, i.val % 2 = 1 → -62 ≤ (exactReduce a).carries.get i ∧ (exactReduce a).carries.get i ≤ 62) ∧
    (∀ i : Fin 10, i.val % 2 = 0 → -31 ≤ (exactReduce a).carries.get i ∧ (exactReduce a).carries.get i ≤ 31) ∧
    (-1 ≤ (exactReduce a).carries.x9 ∧ (exactReduce a).carries.x9 ≤ 1)) ∧
  (∀ a : LimbVec, a.Within 2113928018 → (feReduce a).2 = false) ∧
  (feReduce (Limbs.all 2113928019)).2 = true

/-- REDUCE's output is bounded, not canonical, an inference of the spec (42_reduce.md R150): its value lies strictly between −p and p, and two different fixed points can represent one field element. -/
def Obligations.ReduceOutputIsNotCanonical : Prop :=
  (∀ a : LimbVec, a.Within 2080374784 → -prime < (feReduce a).1.value ∧ (feReduce a).1.value < prime) ∧
  (∃ x y : LimbVec, feReduce x = (x, false) ∧ feReduce y = (y, false) ∧ x ≠ y ∧ y.value = x.value + prime)

/-- Fixed points of REDUCE, an inference of the spec (42_reduce.md R151): settled vectors are fixed points; an output leaves that set only at limb 0 and only when c_9 ≠ 0; REDUCE is not idempotent. -/
def Obligations.ReduceFixedPoints : Prop :=
  (∀ a : LimbVec, a.Settled → feReduce a = (a, false)) ∧
  (∀ a : LimbVec, a.Within 2080374784 →
    (∀ i : Fin 10, i ≠ 0 → -half i ≤ (feReduce a).1.get i ∧ (feReduce a).1.get i < half i) ∧
    ((exactReduce a).carries.x9 = 0 → (feReduce a).1.Settled)) ∧
  (feReduce ⟨33554431, 0, 0, 0, 0, 0, 0, 0, 67108864, 16777215⟩ =
      (⟨33554450, 0, 0, 0, 0, 0, 0, 0, 0, -16777216⟩, false) ∧
    feReduce ⟨33554450, 0, 0, 0, 0, 0, 0, 0, 0, -16777216⟩ =
      (⟨-33554414, 1, 0, 0, 0, 0, 0, 0, 0, -16777216⟩, false))

/-! ## Register interface -/

/-- 20_memory.md R57: what a 32-bit read returns at each offset, and that it changes no state of the block. -/
def Obligations.ReadsReturnTheRegisters : Prop :=
  ∀ s : State,
    (∀ i : Fin 10,
      perform (.access (.read (BitVec.ofNat 7 (0x00 + 4 * i.val)) 4)) s =
        .next { s with response := some (.data (s.a.get i)) } ∧
      perform (.access (.read (BitVec.ofNat 7 (0x28 + 4 * i.val)) 4)) s =
        .next { s with response := some (.data (s.b.get i)) } ∧
      perform (.access (.read (BitVec.ofNat 7 (0x50 + 4 * i.val)) 4)) s =
        .next { s with response := some (.data (s.r.get i)) }) ∧
    perform (.access (.read 0x78#7 4)) s =
      .next { s with response := some (.data (BitVec.ofNat 32 s.ctrlOp.toNat)) } ∧
    perform (.access (.read 0x7C#7 4)) s =
      .next { s with
        response := some (.data (BitVec.ofNat 32
          (16 * s.busyErr.toNat + 8 * s.ill.toNat + 4 * s.ovf.toNat + 2 * s.done.toNat + s.busy.toNat))) }

/-- 20_memory.md R58 and 10_state.md R35: what a 32-bit write of v does at each offset; writes of A and B are the same while BUSY = 1, and change nothing but the one limb; a write to STATUS clears OVF, ILL, BUSYERR where v[2], v[3], v[4] are 1, ignores every other bit, and starts or stops no command. -/
def Obligations.WritesStoreTheRegisters : Prop :=
  ∀ (s : State) (v : Word),
    (∀ i : Fin 10,
      perform (.access (.write (BitVec.ofNat 7 (0x00 + 4 * i.val)) (bytesOfWord v))) s =
        .next { s with response := some .ack, a := s.a.set i v } ∧
      perform (.access (.write (BitVec.ofNat 7 (0x28 + 4 * i.val)) (bytesOfWord v))) s =
        .next { s with response := some .ack, b := s.b.set i v } ∧
      perform (.access (.write (BitVec.ofNat 7 (0x50 + 4 * i.val)) (bytesOfWord v))) s =
        .next { s with response := some .ack } ∧
      (s.a.set i v).get i = v ∧ (∀ j, j ≠ i → (s.a.set i v).get j = s.a.get j)) ∧
    perform (.access (.write 0x78#7 (bytesOfWord v))) s = exec (decodeCtrl v) { s with response := some .ack } ∧
    perform (.access (.write 0x7C#7 (bytesOfWord v))) s = .next
      { s with
        response := some .ack
        ovf := if v[2] = true then false else s.ovf
        ill := if v[3] = true then false else s.ill
        busyErr := if v[4] = true then false else s.busyErr }

/-- 20_memory.md R53, R54, R55: an access that is not of 4 bytes or not naturally aligned gets a bus error with read data 0 and changes no state of the block; any other is performed as its read or its write. -/
def Obligations.RefusedAccesses : Prop :=
  ∀ (s : State) (off : Offset),
    (∀ n : Nat, n ≠ 4 ∨ off.extractLsb' 0 2 ≠ 0b00#2 →
      perform (.access (.read off n)) s = .next { s with response := some (.busError off) }) ∧
    (∀ bytes : List Byte, bytes.length ≠ 4 ∨ off.extractLsb' 0 2 ≠ 0b00#2 →
      perform (.access (.write off bytes)) s = .next { s with response := some (.busError off) }) ∧
    (Response.busError off).readData = 0x00000000#32 ∧
    (off.extractLsb' 0 2 = 0b00#2 → perform (.access (.read off 4)) s = busRead off s) ∧
    (∀ v : Word, off.extractLsb' 0 2 = 0b00#2 →
      perform (.access (.write off (bytesOfWord v))) s = busWrite off v { s with response := some .ack })

/-- 20_memory.md R56: byte lane k carries bits 8k+7 to 8k: four bytes written at the offset of any limb of A or B, lowest address first, are those bits of the register, and a read at that offset returns data whose four lanes are those bytes. -/
def Obligations.ByteLanesAreLittleEndian : Prop :=
  (∀ (s : State) (i : Fin 10) (b0 b1 b2 b3 : Byte), ∃ t u v,
    perform (.access (.write (BitVec.ofNat 7 (0x00 + 4 * i.val)) [b0, b1, b2, b3])) s = .next t ∧
      (t.a.get i).extractLsb' 0 8 = b0 ∧ (t.a.get i).extractLsb' 8 8 = b1 ∧
      (t.a.get i).extractLsb' 16 8 = b2 ∧ (t.a.get i).extractLsb' 24 8 = b3 ∧
    perform (.access (.read (BitVec.ofNat 7 (0x00 + 4 * i.val)) 4)) t = .next u ∧
      u.response = some (.data v) ∧ bytesOfWord v = [b0, b1, b2, b3]) ∧
  (∀ (s : State) (i : Fin 10) (b0 b1 b2 b3 : Byte), ∃ t u v,
    perform (.access (.write (BitVec.ofNat 7 (0x28 + 4 * i.val)) [b0, b1, b2, b3])) s = .next t ∧
      (t.b.get i).extractLsb' 0 8 = b0 ∧ (t.b.get i).extractLsb' 8 8 = b1 ∧
      (t.b.get i).extractLsb' 16 8 = b2 ∧ (t.b.get i).extractLsb' 24 8 = b3 ∧
    perform (.access (.read (BitVec.ofNat 7 (0x28 + 4 * i.val)) 4)) t = .next u ∧
      u.response = some (.data v) ∧ bytesOfWord v = [b0, b1, b2, b3]) ∧
  (∀ v : Word, bytesOfWord v = [v.extractLsb' 0 8, v.extractLsb' 8 8, v.extractLsb' 16 8, v.extractLsb' 24 8])

/-- The register map of 20_memory.md R52: each register at its offset, every word offset of the window mapped, no two registers at one offset. -/
def Obligations.EveryWordOffsetIsARegister : Prop :=
  (∀ i : Fin 10, Reg.ofOffset (BitVec.ofNat 7 (0x00 + 4 * i.val)) = .a i ∧
    Reg.ofOffset (BitVec.ofNat 7 (0x28 + 4 * i.val)) = .b i ∧ Reg.ofOffset (BitVec.ofNat 7 (0x50 + 4 * i.val)) = .r i) ∧
  Reg.ofOffset 0x78#7 = .ctrl ∧ Reg.ofOffset 0x7C#7 = .status ∧
  (∀ off : Offset, off.extractLsb' 0 2 = 0b00#2 → (Reg.ofOffset off).off = off) ∧
  (∀ g g' : Reg, g.off = g'.off → g = g')

/-- The window of 20_memory.md R50 and R51 (the equality with addr[6:0] is the spec's inference): the block sees exactly the addresses FE_BASE to FE_BASE + 0x7F, at offset addr − FE_BASE = addr[6:0], whatever the OPEN FE_BASE is. -/
def Obligations.WindowOffsets : Prop :=
  Config.feBase % 0x80 = 0 ∧
  (∀ (addr : Nat) (off : Offset), windowOffset addr = some off ↔ addr = Config.feBase + off.toNat) ∧
  (∀ addr : Nat, windowOffset addr = none ↔ addr < Config.feBase ∨ Config.feBase + 0x7F < addr) ∧
  (∀ (addr : Nat) (off : Offset), windowOffset addr = some off → off.toNat = addr % 0x80)

/-- 10_state.md R27: bits 30:2 of a CTRL write are ignored and read as 0: two values that agree elsewhere do the same, and CTRL reads back only the two bits of OP. -/
def Obligations.CtrlReservedBitsAreIgnored : Prop :=
  (∀ (v v' : Word) (s : State), v &&& 0x80000003#32 = v' &&& 0x80000003#32 →
    perform (.access (.write 0x78#7 (bytesOfWord v))) s = perform (.access (.write 0x78#7 (bytesOfWord v'))) s) ∧
  (∀ (v : Word) (s : State), ∃ t u,
    perform (.access (.write 0x78#7 (bytesOfWord v))) s = .next t ∧
    perform (.access (.read 0x78#7 4)) t = .next u ∧ u.response = some (.data (v &&& 0x00000003#32)))

/-- Idempotent accesses, an inference of the spec (20_memory.md R61): every access but a CTRL write with START = 1 does nothing more when it is made again; a second command write while the first is in flight sets BUSYERR. -/
def Obligations.IdempotentAccesses : Prop :=
  (∀ (x : Access) (s t : State), (∀ v : Word, v[31] = true → x ≠ .write 0x78#7 (bytesOfWord v)) →
    perform (.access x) s = .next t → perform (.access x) t = .next t) ∧
  (∀ (v : Word) (s : State), s.busy = false → v[31] = true → v.extractLsb' 0 2 ≠ 0b11#2 →
    ∃ t u, perform (.access (.write 0x78#7 (bytesOfWord v))) s = .next t ∧
      perform (.access (.write 0x78#7 (bytesOfWord v))) t = .next u ∧ u = { t with busyErr := true })

/-- The error codes of 60_exceptions.md R161, 2 for OVF, 3 for ILL, 4 for BUSYERR: recording an error sets exactly the bit of STATUS that is its code; a completion whose operation overflowed records OVF and R holds the wrapped result; RESERVED3 while idle records ILL; a command while busy records BUSYERR. -/
def Obligations.ErrorCodesAreStatusBits : Prop :=
  (ErrorCause.ovf.code = 2 ∧ ErrorCause.ill.code = 3 ∧ ErrorCause.busyErr.code = 4) ∧
  (∀ (c : ErrorCause) (s : State),
    readReg .status (recordError c s) = readReg .status s ||| BitVec.twoPow 32 c.code ∧
    (recordError c s).a = s.a ∧ (recordError c s).b = s.b ∧ (recordError c s).r = s.r ∧
    (recordError c s).ctrlOp = s.ctrlOp ∧ (recordError c s).latOp = s.latOp ∧
    (recordError c s).latA = s.latA ∧ (recordError c s).latB = s.latB) ∧
  (∀ (s : State) (x : LimbVec), s.busy = true → feExec s.latOp s.latA.sints s.latB.sints = some (x, true) →
    ∃ t, perform .unit s = .next t ∧ t = { recordError .ovf s with r := x.patterns, busy := false, done := true } ∧
      (readReg .status t).getLsbD ErrorCause.ovf.code = true) ∧
  (∀ (s : State) (v : Word), s.busy = false → v[31] = true → v.extractLsb' 0 2 = 0b11#2 →
    ∃ t, perform (.access (.write 0x78#7 (bytesOfWord v))) s = .next t ∧
      t = recordError .ill { s with response := some .ack, ctrlOp := 0b11#2 } ∧
      (readReg .status t).getLsbD ErrorCause.ill.code = true) ∧
  (∀ (s : State) (v : Word), s.busy = true → v[31] = true →
    ∃ t, perform (.access (.write 0x78#7 (bytesOfWord v))) s = .next t ∧
      t = recordError .busyErr { s with response := some .ack, ctrlOp := v.extractLsb' 0 2 } ∧
      (readReg .status t).getLsbD ErrorCause.busyErr.code = true)

/-! ## Rules of the whole machine -/

/-- The sticky flags of 10_state.md R31, R32, R33 over every event: OVF is set only by a completion whose operation overflowed, ILL only by RESERVED3 while idle, BUSYERR only by a command while busy; each is cleared only by a STATUS write with its bit or by reset. -/
def Obligations.StickyFlagsChangeOnlyAsStated : Prop :=
  ∀ (e : Event) (s t : State), perform e s = .next t →
    (s.ovf = true → t.ovf = false → e.isReset = true ∨ ∃ v, e.writes .status v ∧ v[2] = true) ∧
    (s.ill = true → t.ill = false → e.isReset = true ∨ ∃ v, e.writes .status v ∧ v[3] = true) ∧
    (s.busyErr = true → t.busyErr = false → e.isReset = true ∨ ∃ v, e.writes .status v ∧ v[4] = true) ∧
    (s.ovf = false → t.ovf = true →
      e = .unit ∧ s.busy = true ∧ ∃ x, feExec s.latOp s.latA.sints s.latB.sints = some (x, true)) ∧
    (s.ill = false → t.ill = true →
      s.busy = false ∧ ∃ v, e.writes .ctrl v ∧ v[31] = true ∧ v.extractLsb' 0 2 = 0b11#2) ∧
    (s.busyErr = false → t.busyErr = true → s.busy = true ∧ ∃ v, e.writes .ctrl v ∧ v[31] = true)

/-- BUSY and DONE over every event (10_state.md R29, R30 as step rules): BUSY is set only by an accepted command and cleared only by completion or reset; DONE is set only by completion and cleared only by an accepted command or reset. -/
def Obligations.BusyAndDoneChangeOnlyAsStated : Prop :=
  ∀ (e : Event) (s t : State), perform e s = .next t →
    (s.busy = false → t.busy = true →
      t.done = false ∧ ∃ v, e.writes .ctrl v ∧ v[31] = true ∧ v.extractLsb' 0 2 ≠ 0b11#2) ∧
    (s.busy = true → t.busy = false → e.isReset = true ∨ (e = .unit ∧ t.done = true)) ∧
    (s.done = false → t.done = true → e = .unit ∧ s.busy = true) ∧
    (s.done = true → t.done = false →
      e.isReset = true ∨
        (s.busy = false ∧ t.busy = true ∧ ∃ v, e.writes .ctrl v ∧ v[31] = true ∧ v.extractLsb' 0 2 ≠ 0b11#2))

/-- The operand files over every event (10_state.md R21, R22): A[i] and B[i] change only by a host write to that very register, which stores the written pattern, or by reset; no command changes them. -/
def Obligations.OperandFilesChangeOnlyByHostWrites : Prop :=
  ∀ (e : Event) (s t : State) (i : Fin 10), perform e s = .next t →
    (t.a.get i ≠ s.a.get i → e.isReset = true ∨ e.writes (.a i) (t.a.get i)) ∧
    (t.b.get i ≠ s.b.get i → e.isReset = true ∨ e.writes (.b i) (t.b.get i))

/-- The result file over every event (10_state.md R23): R changes only at the completion of a command, which writes the result of the latched operation, or by reset. -/
def Obligations.ResultChangesOnlyAtCompletion : Prop :=
  ∀ (e : Event) (s t : State), perform e s = .next t → t.r ≠ s.r →
    e.isReset = true ∨
      (e = .unit ∧ s.busy = true ∧
        ∃ res, feExec s.latOp s.latA.sints s.latB.sints = some res ∧ t.r = res.1.patterns)

/-- The hidden latch over every event (10_state.md R36): it changes only when a command is accepted, which copies OP, A and B into it, or by reset. -/
def Obligations.LatchChangesOnlyAtAcceptance : Prop :=
  ∀ (e : Event) (s t : State), perform e s = .next t →
    ¬(t.latOp = s.latOp ∧ t.latA = s.latA ∧ t.latB = s.latB) →
    e.isReset = true ∨
      (s.busy = false ∧ t.busy = true ∧ t.latA = s.a ∧ t.latB = s.b ∧
        ∃ v, e.writes .ctrl v ∧ v[31] = true ∧ v.extractLsb' 0 2 ≠ 0b11#2 ∧ t.latOp = v.extractLsb' 0 2)

/-- The latch of an idle block has no effect on any observable behaviour (from 10_state.md R36): two idle states that differ in the latch alone answer every sequence of events alike, and still differ in the latch at most. -/
def Obligations.IdleLatchIsInvisible : Prop :=
  ∀ (es : List Event) (s s' : State), s.busy = false → s'.busy = false → s.eraseLatch = s'.eraseLatch →
    ∃ t t', performAll es s = .next t ∧ performAll es s' = .next t' ∧ t.eraseLatch = t'.eraseLatch

/-- State.reset meets the invariant (inference from 10_state.md R41). -/
def Obligations.ResetMeetsTheInvariant : Prop := State.reset.Inv

/-- Every step keeps the invariant: the latch never holds the reserved operation (inference in 40_command.md R106), and BUSY and DONE are never both set (inference in 10_state.md R30). -/
def Obligations.StepKeepsTheInvariant : Prop :=
  ∀ s t : State, s.Inv → step s = .next t → t.Inv

/-- Where the invariant holds the machine never stops: every event, and so every step, answers a next state (from 60_exceptions.md R160 and 40_command.md R110). -/
def Obligations.StepAlwaysAnswersNext : Prop :=
  ∀ s : State, s.Inv → (∀ e, ∃ t, perform e s = .next t) ∧ ∃ t, step s = .next t

/-- A command in flight completes within the schedule and one more step, unless a reset intervenes (the model's form of the fairness of 40_command.md R107, log 2), and R then holds the result of the latched operation. -/
def Obligations.CommandInFlightCompletes : Prop :=
  ∀ s : State, s.Inv → s.busy = true → (∀ e ∈ s.pending, e.isReset = false) →
    ∃ k t res, k ≤ s.pending.length + 1 ∧ Host.Core.run core k s = .next t ∧
      feExec s.latOp s.latA.sints s.latB.sints = some res ∧
      t.r = res.1.patterns ∧ t.busy = false ∧ t.done = true

/-- 40_command.md R108: the result and the overflow bit of a command are a function of the latch alone, whatever host accesses are made between acceptance and completion and whenever completion is taken. -/
def Obligations.ResultIsAFunctionOfTheLatch : Prop :=
  ∀ (s : State) (xs : List Access), s.Inv → s.busy = true →
    ∃ t u res, performAll (xs.map .access) s = .next t ∧ perform .unit t = .next u ∧
      feExec s.latOp s.latA.sints s.latB.sints = some res ∧
      u.r = res.1.patterns ∧ u.ovf = (t.ovf || res.2) ∧ u.busy = false ∧ u.done = true

/-! ## Host programs -/

/-- The ten writes of FLDA and of FLDB, and the ten reads of FRDR, may be made in any order (30_encoding.md R90, marked derived by the spec; the host layer is the model's, log 10).
The expansions of R89 are the programs in limb order.
In any order the writes leave the file equal to the operand, and the reads leave the block as it was but for the bus response and give each variable its limb of R (where no two limbs share a variable, else the later read of a shared one counts). -/
def Obligations.LoadOrderIsFree : Prop :=
  (∀ (x : LimbFile) (order : List (Fin 10)) (s : State), order.Perm limbOrder →
    performAll (order.map fun i => .access (wrAccess (.a i) (x.get i))) s =
      .next { s with a := x, response := some .ack } ∧
    performAll (order.map fun i => .access (wrAccess (.b i) (x.get i))) s =
      .next { s with b := x, response := some .ack }) ∧
  (∀ (x : LimbFile) (names : Limbs Nat),
    expand (.flda x) = limbOrder.map (fun i => .wr (.a i) (.lit (x.get i))) ∧
    expand (.fldb x) = limbOrder.map (fun i => .wr (.b i) (.lit (x.get i))) ∧
    expand (.frdr names) = limbOrder.map (fun i => .rd (.r i) (names.get i))) ∧
  (∀ (x : LimbFile) (names : Limbs Nat) (order : List (Fin 10)) (s : State), order.Perm limbOrder →
    (let p : List HostLine := order.map fun i => .wr (.a i) (.lit (x.get i))
     System.run (List.replicate 10 .host) ⟨HostRun.start p, s⟩ =
       .next ⟨⟨p, 10, []⟩, { s with a := x, response := some .ack }⟩) ∧
    (let p : List HostLine := order.map fun i => .wr (.b i) (.lit (x.get i))
     System.run (List.replicate 10 .host) ⟨HostRun.start p, s⟩ =
       .next ⟨⟨p, 10, []⟩, { s with b := x, response := some .ack }⟩) ∧
    (let p : List HostLine := order.map fun i => .rd (.r i) (names.get i)
     ∃ vars q, System.run (List.replicate 10 .host) ⟨HostRun.start p, s⟩ =
         .next ⟨⟨p, 10, vars⟩, { s with response := some (.data q) }⟩ ∧
       vars = (order.map fun i => (names.get i, s.r.get i)).reverse ∧
       ((∀ i j, names.get i = names.get j → i = j) →
         ∀ i, HostRun.lookup ⟨p, 10, vars⟩ (names.get i) = some (s.r.get i))))

/-- The one-line pseudo-instructions of 30_encoding.md R89 do what their expansions do: one turn of the host issues the command, stores the OP, or clears the three flags (the host layer is the model's, log 10). -/
def Obligations.PseudoInstructionsRunTheirCommands : Prop :=
  ∀ s : State,
    (∃ t, exec .add { s with response := some .ack } = .next t ∧
      System.turn .host ⟨HostRun.start (expand .fadd), s⟩ = .next ⟨⟨expand .fadd, 1, []⟩, t⟩) ∧
    (∃ t, exec .sub { s with response := some .ack } = .next t ∧
      System.turn .host ⟨HostRun.start (expand .fsub), s⟩ = .next ⟨⟨expand .fsub, 1, []⟩, t⟩) ∧
    (∃ t, exec .reduce { s with response := some .ack } = .next t ∧
      System.turn .host ⟨HostRun.start (expand .fred), s⟩ = .next ⟨⟨expand .fred, 1, []⟩, t⟩) ∧
    (∀ k : Op, ∃ t, exec (.setop k) { s with response := some .ack } = .next t ∧
      System.turn .host ⟨HostRun.start (expand (.fsetop k)), s⟩ = .next ⟨⟨expand (.fsetop k), 1, []⟩, t⟩) ∧
    System.turn .host ⟨HostRun.start (expand .fclr), s⟩ =
      .next ⟨⟨expand .fclr, 1, []⟩, { s with response := some .ack, ovf := false, ill := false, busyErr := false }⟩

/-- FMOVRA copies R to A (30_encoding.md R89): its twenty host turns leave A equal to R and everything else of the block as it was (log 10). -/
def Obligations.FmovraCopiesTheResult : Prop :=
  ∀ (s : State) (x : Nat), ∃ h,
    System.run (List.replicate 20 .host) ⟨HostRun.start (expand (.fmovra x)), s⟩ =
      .next ⟨h, { s with a := s.r, response := some .ack }⟩

/-- FWAIT loops until BUSY = 0 (30_encoding.md R89): one round reads STATUS into its variable and is back at the label where BUSY = 1, past the loop where BUSY = 0 (log 10). -/
def Obligations.FwaitLoopsWhileBusy : Prop :=
  ∀ (s : State) (x w : Nat),
    System.run [.host, .host, .host] ⟨HostRun.start (expand (.fwait x w)), s⟩ =
      .next ⟨⟨expand (.fwait x w), if s.busy = true then 0 else 3, [(x, readReg .status s)]⟩,
        { s with response := some (.data (readReg .status s)) }⟩

/-! ## Reductions that overflow -/

/-- 42_reduce.md R145: FE_REDUCE is pass 1, the chain on limbs 0 to 8, and the step on limb 9 with its fold, on every vector; ovf = 1 exactly when a primitive inside these steps met a result that does not fit, and after an overflow the following steps run on the wrapped values. -/
def Obligations.ReduceRunsOnWrappedValues : Prop :=
  ∀ a : LimbVec,
    (feReduce a).1 = (tracedReduce a).limbs ∧
    ((feReduce a).2 = true ↔ ∃ n ∈ (tracedReduce a).met, DoesNotFit n)
end

