-- ==== Sys2Proof/Laws/Limbs.lean ====
section
/-! SUPPORT. Limb vectors: indexing laws, extensionality, and the integers behind the patterns (00_scope.md R6 to R12). -/

namespace Sys2Proof

variable {α β : Type}

/-- Two vectors with the same ten limbs are equal. -/
theorem Limbs.ext_get {x y : Limbs α} (h : ∀ i, x.get i = y.get i) : x = y := by
  have h0 := h 0; have h1 := h 1; have h2 := h 2; have h3 := h 3; have h4 := h 4
  have h5 := h 5; have h6 := h 6; have h7 := h 7; have h8 := h 8; have h9 := h 9
  cases x; cases y
  simp_all [Limbs.get]

/-- Every limb of a vector has a number from 0 to 9. -/
theorem forall_limb {p : Fin 10 → Prop} :
    (∀ i, p i) ↔ p 0 ∧ p 1 ∧ p 2 ∧ p 3 ∧ p 4 ∧ p 5 ∧ p 6 ∧ p 7 ∧ p 8 ∧ p 9 := by
  constructor
  · intro h; exact ⟨h 0, h 1, h 2, h 3, h 4, h 5, h 6, h 7, h 8, h 9⟩
  · rintro ⟨h0, h1, h2, h3, h4, h5, h6, h7, h8, h9⟩ i
    fin_cases i <;> assumption

@[simp] theorem Limbs.get_ofFn (f : Fin 10 → α) (i : Fin 10) : (Limbs.ofFn f).get i = f i := by
  fin_cases i <;> rfl

@[simp] theorem Limbs.get_map (f : α → β) (x : Limbs α) (i : Fin 10) : (x.map f).get i = f (x.get i) := by
  simp [Limbs.map]

@[simp] theorem Limbs.get_all (v : α) (i : Fin 10) : (Limbs.all v).get i = v := by simp [Limbs.all]

@[simp] theorem Limbs.get_set_self (x : Limbs α) (i : Fin 10) (v : α) : (x.set i v).get i = v := by
  fin_cases i <;> rfl

theorem Limbs.get_set_of_ne (x : Limbs α) {i j : Fin 10} (v : α) (h : j ≠ i) : (x.set i v).get j = x.get j := by
  fin_cases i <;> fin_cases j <;> first | rfl | exact absurd rfl h

theorem Limbs.get_set (x : Limbs α) (i j : Fin 10) (v : α) : (x.set i v).get j = if j = i then v else x.get j := by
  by_cases h : j = i
  · subst h; simp
  · simp [h, Limbs.get_set_of_ne x v h]

@[simp] theorem Limbs.set_set (x : Limbs α) (i : Fin 10) (v w : α) : (x.set i v).set i w = x.set i w := by
  fin_cases i <;> rfl

@[simp] theorem Limbs.set_get (x : Limbs α) (i : Fin 10) : x.set i (x.get i) = x := by
  fin_cases i <;> rfl

@[simp] theorem Limbs.get_zero (i : Fin 10) : Limbs.zero.get i = 0x00000000#32 := by
  fin_cases i <;> rfl

@[simp] theorem Limbs.get_sints (x : LimbFile) (i : Fin 10) : x.sints.get i = sint (x.get i) := by
  simp [Limbs.sints]

@[simp] theorem Limbs.get_patterns (x : LimbVec) (i : Fin 10) : x.patterns.get i = bits32 (x.get i) := by
  simp [Limbs.patterns]

/-! ### Patterns and integers -/

/-- sint is a 32-bit signed integer (00_scope.md R12). -/
theorem sint_range (v : Word) : -2147483648 ≤ sint v ∧ sint v ≤ 2147483647 := by
  have h1 := BitVec.le_toInt v
  have h2 := BitVec.toInt_le (x := v)
  norm_num at h1 h2
  exact ⟨h1, by simpa [sint] using h2⟩

@[simp] theorem bits32_sint (v : Word) : bits32 (sint v) = v := by simp [bits32, sint]

/-- The operands of a command are in range whatever the registers hold (30_encoding.md R84). -/
theorem Limbs.sints_inRange (x : LimbFile) : x.sints.InRange := by
  intro i
  simpa using sint_range (x.get i)

/-- wrap32 as the balanced remainder mod 2^32 (00_scope.md R12). -/
theorem wrap32_eq_bmod (n : Int) : Machine.wrap32 n = n.bmod 4294967296 := by
  simp [Machine.wrap32, sint, bits32, BitVec.toInt_ofInt]

theorem wrap32_range (n : Int) : -2147483648 ≤ Machine.wrap32 n ∧ Machine.wrap32 n ≤ 2147483647 :=
  sint_range (bits32 n)

/-- Wrapping leaves a 32-bit integer as it is (00_scope.md R12). -/
theorem wrap32_of_inRange {n : Int} (h1 : -2147483648 ≤ n) (h2 : n ≤ 2147483647) : Machine.wrap32 n = n := by
  rw [wrap32_eq_bmod, Int.bmod_def]
  omega

@[simp] theorem bits32_wrap32 (n : Int) : bits32 (Machine.wrap32 n) = bits32 n := by
  simp [Machine.wrap32]

theorem sint_bits32 {n : Int} (h1 : -2147483648 ≤ n) (h2 : n ≤ 2147483647) : sint (bits32 n) = n :=
  wrap32_of_inRange h1 h2

end Sys2Proof
end

