-- ==== Sys2Proof/Laws/Arith.lean ====
section
/-! SUPPORT. What each arithmetic operation can do: one specification per primitive, per carry step, per limb-wise function (00_scope.md R13; 41_addsub.md; 42_reduce.md). -/

namespace Sys2Proof.Machine

/-! ### Checked primitives -/

theorem outOfRange_eq_false_iff {t : Int} : outOfRange t = false ↔ -2147483648 ≤ t ∧ t ≤ 2147483647 := by
  simp [outOfRange]

theorem outOfRange_eq_true_iff {t : Int} : outOfRange t = true ↔ t < -2147483648 ∨ 2147483647 < t := by
  simp [outOfRange]

@[simp] theorem narrow_ovf (t : Int) : (narrow t).ovf = outOfRange t := rfl
@[simp] theorem narrow_val (t : Int) : (narrow t).val = wrap32 t := rfl

/-- A result that fits is returned as it is, and ovf is not set. -/
theorem narrow_of_inRange {t : Int} (h1 : -2147483648 ≤ t) (h2 : t ≤ 2147483647) : narrow t = ⟨t, false⟩ := by
  simp [narrow, wrap32_of_inRange h1 h2, outOfRange_eq_false_iff.mpr ⟨h1, h2⟩]

/-- Where ovf is not set, the value is exact. -/
theorem narrow_val_of_ovf_false {t : Int} (h : (narrow t).ovf = false) : (narrow t).val = t := by
  obtain ⟨h1, h2⟩ := outOfRange_eq_false_iff.mp h
  exact wrap32_of_inRange h1 h2

/-! ### Limb-wise functions -/

theorem anyLimb_eq_true_iff {x : Limbs Bool} : anyLimb x = true ↔ ∃ i, x.get i = true := by
  constructor
  · intro h
    by_contra hn
    push Not at hn
    have := forall_limb.mp hn
    simp only [Limbs.get] at this
    simp [anyLimb, this] at h
  · rintro ⟨i, h⟩
    fin_cases i <;> simp_all [anyLimb, Limbs.get]

theorem anyLimb_eq_false_iff {x : Limbs Bool} : anyLimb x = false ↔ ∀ i, x.get i = false := by
  rw [← not_iff_not, Bool.not_eq_false, anyLimb_eq_true_iff]
  simp

@[simp] theorem limbwise_get (f : Int → Int → Checked) (a b : LimbVec) (i : Fin 10) :
    (limbwise f a b).1.get i = (f (a.get i) (b.get i)).val := by simp [limbwise]

theorem limbwise_ovf_iff (f : Int → Int → Checked) (a b : LimbVec) :
    (limbwise f a b).2 = true ↔ ∃ i, (f (a.get i) (b.get i)).ovf = true := by
  simp [limbwise, anyLimb_eq_true_iff]

theorem limbwise_noOvf_iff (f : Int → Int → Checked) (a b : LimbVec) :
    (limbwise f a b).2 = false ↔ ∀ i, (f (a.get i) (b.get i)).ovf = false := by
  simp [limbwise, anyLimb_eq_false_iff]

/-! ### The carry step -/

theorem half_cases (i : Fin 10) : (width i = 26 ∧ half i = 33554432) ∨ (width i = 25 ∧ half i = 16777216) := by
  by_cases h : i.val % 2 = 0
  · left; simp [width, half, h]
  · right; simp [width, half, h]

/-- h_i is half of the carry threshold (00_scope.md R7). -/
theorem half_eq_pow (i : Fin 10) : half i = 2 ^ (width i - 1) := by
  rcases half_cases i with ⟨hw, hh⟩ | ⟨hw, hh⟩ <;> norm_num [hw, hh]

/-- A carry step whose first addition does not overflow: the carry is the rounded quotient, the limb keeps what is left, nothing else changes (42_reduce.md R140). -/
theorem carryStep_exact (w : Work) (i : Fin 10) (h1 : -2147483648 ≤ w.x.get i)
    (h2 : w.x.get i + half i ≤ 2147483647) :
    carryStep w i =
      (⟨w.x.set i (w.x.get i - exactCarry i (w.x.get i) * (2 ^ width i : Nat)), w.ovf⟩,
        exactCarry i (w.x.get i)) := by
  have hh : 0 ≤ half i := by rcases half_cases i with ⟨-, h⟩ | ⟨-, h⟩ <;> omega
  have ht : addw (w.x.get i) (half i) = ⟨w.x.get i + half i, false⟩ := narrow_of_inRange (by omega) h2
  have hm : shlw (exactCarry i (w.x.get i)) (width i)
      = ⟨exactCarry i (w.x.get i) * (2 ^ width i : Nat), false⟩ := by
    apply narrow_of_inRange <;>
      rcases half_cases i with ⟨hw, h⟩ | ⟨hw, h⟩ <;> rw [h] at h2 <;> norm_num [exactCarry, hw, h] <;> omega
  have hd : subw (w.x.get i) (exactCarry i (w.x.get i) * (2 ^ width i : Nat))
      = ⟨w.x.get i - exactCarry i (w.x.get i) * (2 ^ width i : Nat), false⟩ := by
    apply narrow_of_inRange <;>
      rcases half_cases i with ⟨hw, h⟩ | ⟨hw, h⟩ <;> rw [h] at h2 <;> norm_num [exactCarry, hw, h] <;> omega
  have hc : asr (w.x.get i + half i) (width i) = exactCarry i (w.x.get i) := rfl
  simp only [carryStep, ht, hc, hm, hd, Bool.or_false]

/-- What is left of a limb after its carry lies in −h_i .. h_i − 1 (42_reduce.md R140). -/
theorem exactCarry_remainder (i : Fin 10) (x : Int) :
    -half i ≤ x - exactCarry i x * (2 ^ width i : Nat) ∧ x - exactCarry i x * (2 ^ width i : Nat) < half i := by
  rcases half_cases i with ⟨hw, h⟩ | ⟨hw, h⟩ <;> norm_num [exactCarry, hw, h] <;> omega

/-- A settled limb carries nothing (42_reduce.md R151). -/
theorem exactCarry_of_settled {i : Fin 10} {x : Int} (h1 : -half i ≤ x) (h2 : x < half i) : exactCarry i x = 0 := by
  rcases half_cases i with ⟨hw, h⟩ | ⟨hw, h⟩ <;> rw [h] at h1 h2 <;> norm_num [exactCarry, hw, h] <;> omega

/-- Adding a carry that fits. -/
theorem addCarry_exact (w : Work) (i : Fin 10) (c : Int) (h1 : -2147483648 ≤ w.x.get i + c)
    (h2 : w.x.get i + c ≤ 2147483647) : addCarry w i c = ⟨w.x.set i (w.x.get i + c), w.ovf⟩ := by
  have ht : addw (w.x.get i) c = ⟨w.x.get i + c, false⟩ := narrow_of_inRange h1 h2
  simp [addCarry, ht]

/-! ### Overflow is never forgotten within a reduction -/

theorem carryStep_ovf_of_ovf {w : Work} (i : Fin 10) (h : w.ovf = true) : (carryStep w i).1.ovf = true := by
  simp [carryStep, h]

theorem addCarry_ovf_of_ovf {w : Work} (i : Fin 10) (c : Int) (h : w.ovf = true) : (addCarry w i c).ovf = true := by
  simp [addCarry, h]

theorem foldTop_ovf_of_ovf {w : Work} (h : w.ovf = true) : (foldTop w).ovf = true := by
  unfold foldTop
  exact addCarry_ovf_of_ovf _ _ (by simp [carryStep_ovf_of_ovf _ h])

theorem chainStep_ovf_of_ovf {w : Work} (i : Fin 9) (h : w.ovf = true) : (chainStep w i).ovf = true :=
  addCarry_ovf_of_ovf _ _ (carryStep_ovf_of_ovf _ h)

theorem pass2Chain_ovf_of_ovf {w : Work} (h : w.ovf = true) : (pass2Chain w).ovf = true := by
  have chain : ∀ (is : List (Fin 9)) (w : Work), w.ovf = true → (is.foldl chainStep w).ovf = true := by
    intro is
    induction is with
    | nil => intro w h; exact h
    | cons i is ih => intro w h; exact ih _ (chainStep_ovf_of_ovf i h)
  exact chain _ w h

/-! ### Steps of a reduction on wrapped values -/

/-- The two spellings of wrap32 agree (00_scope.md R12). -/
theorem wrap32_eq_wrapped (n : Int) : wrap32 n = wrapped n := wrap32_eq_bmod n

/-- The test of a checked primitive says whether the exact result fits (00_scope.md R13). -/
theorem outOfRange_iff_doesNotFit (n : Int) : outOfRange n = true ↔ DoesNotFit n := outOfRange_eq_true_iff

/-- Everything a carry step does, overflowing or not (42_reduce.md R140). -/
theorem carryStep_traced (w : Work) (i : Fin 10) :
    (carryStep w i).1.x = w.x.set i (tracedCarry i (w.x.get i)).limb ∧
    (carryStep w i).2 = (tracedCarry i (w.x.get i)).carry ∧
    ((carryStep w i).1.ovf = true ↔ w.ovf = true ∨ ∃ n ∈ (tracedCarry i (w.x.get i)).met, DoesNotFit n) := by
  refine ⟨?_, ?_, ?_⟩
  · simp [carryStep, tracedCarry, addw, subw, shlw, asr, ← wrap32_eq_wrapped]
  · simp [carryStep, tracedCarry, addw, asr, ← wrap32_eq_wrapped]
  · simp [carryStep, tracedCarry, addw, subw, shlw, asr, ← wrap32_eq_wrapped, outOfRange_iff_doesNotFit, or_assoc]

/-- Everything that adding a carry does, overflowing or not (42_reduce.md R141 to R143). -/
theorem addCarry_traced (w : Work) (i : Fin 10) (c : Int) :
    (addCarry w i c).x = w.x.set i (wrapped (w.x.get i + c)) ∧
    ((addCarry w i c).ovf = true ↔ w.ovf = true ∨ DoesNotFit (w.x.get i + c)) := by
  constructor <;> simp [addCarry, addw, ← wrap32_eq_wrapped, outOfRange_iff_doesNotFit]

/-- Everything a link of the chain does, overflowing or not (42_reduce.md R142). -/
theorem chainStep_traced (w : Work) (i : Fin 9) :
    (chainStep w i).x =
      (w.x.set i.castSucc (tracedCarry i.castSucc (w.x.get i.castSucc)).limb).set i.succ
        (wrapped (w.x.get i.succ + (tracedCarry i.castSucc (w.x.get i.castSucc)).carry)) ∧
    ((chainStep w i).ovf = true ↔
      w.ovf = true ∨ (∃ n ∈ (tracedCarry i.castSucc (w.x.get i.castSucc)).met, DoesNotFit n) ∨
      DoesNotFit (w.x.get i.succ + (tracedCarry i.castSucc (w.x.get i.castSucc)).carry)) := by
  obtain ⟨h1, h2, h3⟩ := carryStep_traced w i.castSucc
  obtain ⟨g1, g2⟩ := addCarry_traced (carryStep w i.castSucc).1 i.succ (carryStep w i.castSucc).2
  have hne : i.succ ≠ i.castSucc := by simp [Fin.ext_iff]
  rw [h1, Limbs.get_set_of_ne _ _ hne, h2] at g1 g2
  unfold chainStep
  dsimp only
  rw [h2]
  exact ⟨g1, by rw [g2, h3, or_assoc]⟩

/-- Everything the step on limb 9 and its fold do, overflowing or not (42_reduce.md R141, R143). -/
theorem foldTop_traced (w : Work) :
    (foldTop w).x = (w.x.set 9 (tracedCarry 9 (w.x.get 9)).limb).set 0
      (wrapped (w.x.get 0 + wrapped (19 * (tracedCarry 9 (w.x.get 9)).carry))) ∧
    ((foldTop w).ovf = true ↔ w.ovf = true ∨ (∃ n ∈ (tracedCarry 9 (w.x.get 9)).met, DoesNotFit n) ∨
      DoesNotFit (19 * (tracedCarry 9 (w.x.get 9)).carry) ∨
      DoesNotFit (w.x.get 0 + wrapped (19 * (tracedCarry 9 (w.x.get 9)).carry))) := by
  obtain ⟨h1, h2, h3⟩ := carryStep_traced w 9
  unfold foldTop
  obtain ⟨g1, g2⟩ := addCarry_traced ⟨(carryStep w 9).1.x, (carryStep w 9).1.ovf || (mulw 19 (carryStep w 9).2).ovf⟩ 0 (mulw 19 (carryStep w 9).2).val
  simp only [h1, Limbs.get_set_of_ne _ _ (show (0 : Fin 10) ≠ 9 by decide), h2, mulw, narrow_val, wrap32_eq_wrapped, narrow_ovf, Bool.or_eq_true, outOfRange_iff_doesNotFit] at g1 g2 ⊢
  exact ⟨g1, by rw [g2, h3, or_assoc, or_assoc]⟩

end Sys2Proof.Machine
end

