-- ==== Sys2Proof/Laws/State.lean ====
section
/-! SUPPORT. What each named update of the state does to each field. -/

namespace Sys2Proof.Machine

/-! ### `storeOp op s` -/

@[simp] theorem storeOp_a (op : Op) (s : State) : (storeOp op s).a = s.a := rfl
@[simp] theorem storeOp_b (op : Op) (s : State) : (storeOp op s).b = s.b := rfl
@[simp] theorem storeOp_r (op : Op) (s : State) : (storeOp op s).r = s.r := rfl
@[simp] theorem storeOp_ctrlOp (op : Op) (s : State) : (storeOp op s).ctrlOp = op := rfl
@[simp] theorem storeOp_busy (op : Op) (s : State) : (storeOp op s).busy = s.busy := rfl
@[simp] theorem storeOp_done (op : Op) (s : State) : (storeOp op s).done = s.done := rfl
@[simp] theorem storeOp_ovf (op : Op) (s : State) : (storeOp op s).ovf = s.ovf := rfl
@[simp] theorem storeOp_ill (op : Op) (s : State) : (storeOp op s).ill = s.ill := rfl
@[simp] theorem storeOp_busyErr (op : Op) (s : State) : (storeOp op s).busyErr = s.busyErr := rfl
@[simp] theorem storeOp_latOp (op : Op) (s : State) : (storeOp op s).latOp = s.latOp := rfl
@[simp] theorem storeOp_latA (op : Op) (s : State) : (storeOp op s).latA = s.latA := rfl
@[simp] theorem storeOp_latB (op : Op) (s : State) : (storeOp op s).latB = s.latB := rfl
@[simp] theorem storeOp_pending (op : Op) (s : State) : (storeOp op s).pending = s.pending := rfl
@[simp] theorem storeOp_response (op : Op) (s : State) : (storeOp op s).response = s.response := rfl
@[simp] theorem storeOp_openCount (op : Op) (s : State) : (storeOp op s).openCount = s.openCount := rfl

/-! ### `recordError .ovf s` -/

@[simp] theorem recordOvf_a (s : State) : (recordError .ovf s).a = s.a := rfl
@[simp] theorem recordOvf_b (s : State) : (recordError .ovf s).b = s.b := rfl
@[simp] theorem recordOvf_r (s : State) : (recordError .ovf s).r = s.r := rfl
@[simp] theorem recordOvf_ctrlOp (s : State) : (recordError .ovf s).ctrlOp = s.ctrlOp := rfl
@[simp] theorem recordOvf_busy (s : State) : (recordError .ovf s).busy = s.busy := rfl
@[simp] theorem recordOvf_done (s : State) : (recordError .ovf s).done = s.done := rfl
@[simp] theorem recordOvf_ovf (s : State) : (recordError .ovf s).ovf = true := rfl
@[simp] theorem recordOvf_ill (s : State) : (recordError .ovf s).ill = s.ill := rfl
@[simp] theorem recordOvf_busyErr (s : State) : (recordError .ovf s).busyErr = s.busyErr := rfl
@[simp] theorem recordOvf_latOp (s : State) : (recordError .ovf s).latOp = s.latOp := rfl
@[simp] theorem recordOvf_latA (s : State) : (recordError .ovf s).latA = s.latA := rfl
@[simp] theorem recordOvf_latB (s : State) : (recordError .ovf s).latB = s.latB := rfl
@[simp] theorem recordOvf_pending (s : State) : (recordError .ovf s).pending = s.pending := rfl
@[simp] theorem recordOvf_response (s : State) : (recordError .ovf s).response = s.response := rfl
@[simp] theorem recordOvf_openCount (s : State) : (recordError .ovf s).openCount = s.openCount := rfl

/-! ### `recordError .ill s` -/

@[simp] theorem recordIll_a (s : State) : (recordError .ill s).a = s.a := rfl
@[simp] theorem recordIll_b (s : State) : (recordError .ill s).b = s.b := rfl
@[simp] theorem recordIll_r (s : State) : (recordError .ill s).r = s.r := rfl
@[simp] theorem recordIll_ctrlOp (s : State) : (recordError .ill s).ctrlOp = s.ctrlOp := rfl
@[simp] theorem recordIll_busy (s : State) : (recordError .ill s).busy = s.busy := rfl
@[simp] theorem recordIll_done (s : State) : (recordError .ill s).done = s.done := rfl
@[simp] theorem recordIll_ovf (s : State) : (recordError .ill s).ovf = s.ovf := rfl
@[simp] theorem recordIll_ill (s : State) : (recordError .ill s).ill = true := rfl
@[simp] theorem recordIll_busyErr (s : State) : (recordError .ill s).busyErr = s.busyErr := rfl
@[simp] theorem recordIll_latOp (s : State) : (recordError .ill s).latOp = s.latOp := rfl
@[simp] theorem recordIll_latA (s : State) : (recordError .ill s).latA = s.latA := rfl
@[simp] theorem recordIll_latB (s : State) : (recordError .ill s).latB = s.latB := rfl
@[simp] theorem recordIll_pending (s : State) : (recordError .ill s).pending = s.pending := rfl
@[simp] theorem recordIll_response (s : State) : (recordError .ill s).response = s.response := rfl
@[simp] theorem recordIll_openCount (s : State) : (recordError .ill s).openCount = s.openCount := rfl

/-! ### `recordError .busyErr s` -/

@[simp] theorem recordBusyErr_a (s : State) : (recordError .busyErr s).a = s.a := rfl
@[simp] theorem recordBusyErr_b (s : State) : (recordError .busyErr s).b = s.b := rfl
@[simp] theorem recordBusyErr_r (s : State) : (recordError .busyErr s).r = s.r := rfl
@[simp] theorem recordBusyErr_ctrlOp (s : State) : (recordError .busyErr s).ctrlOp = s.ctrlOp := rfl
@[simp] theorem recordBusyErr_busy (s : State) : (recordError .busyErr s).busy = s.busy := rfl
@[simp] theorem recordBusyErr_done (s : State) : (recordError .busyErr s).done = s.done := rfl
@[simp] theorem recordBusyErr_ovf (s : State) : (recordError .busyErr s).ovf = s.ovf := rfl
@[simp] theorem recordBusyErr_ill (s : State) : (recordError .busyErr s).ill = s.ill := rfl
@[simp] theorem recordBusyErr_busyErr (s : State) : (recordError .busyErr s).busyErr = true := rfl
@[simp] theorem recordBusyErr_latOp (s : State) : (recordError .busyErr s).latOp = s.latOp := rfl
@[simp] theorem recordBusyErr_latA (s : State) : (recordError .busyErr s).latA = s.latA := rfl
@[simp] theorem recordBusyErr_latB (s : State) : (recordError .busyErr s).latB = s.latB := rfl
@[simp] theorem recordBusyErr_pending (s : State) : (recordError .busyErr s).pending = s.pending := rfl
@[simp] theorem recordBusyErr_response (s : State) : (recordError .busyErr s).response = s.response := rfl
@[simp] theorem recordBusyErr_openCount (s : State) : (recordError .busyErr s).openCount = s.openCount := rfl

/-! ### `statusWrite v s` -/

@[simp] theorem statusWrite_a (v : Word) (s : State) : (statusWrite v s).a = s.a := rfl
@[simp] theorem statusWrite_b (v : Word) (s : State) : (statusWrite v s).b = s.b := rfl
@[simp] theorem statusWrite_r (v : Word) (s : State) : (statusWrite v s).r = s.r := rfl
@[simp] theorem statusWrite_ctrlOp (v : Word) (s : State) : (statusWrite v s).ctrlOp = s.ctrlOp := rfl
@[simp] theorem statusWrite_busy (v : Word) (s : State) : (statusWrite v s).busy = s.busy := rfl
@[simp] theorem statusWrite_done (v : Word) (s : State) : (statusWrite v s).done = s.done := rfl
@[simp] theorem statusWrite_ovf (v : Word) (s : State) : (statusWrite v s).ovf = (s.ovf && !v[2]) := rfl
@[simp] theorem statusWrite_ill (v : Word) (s : State) : (statusWrite v s).ill = (s.ill && !v[3]) := rfl
@[simp] theorem statusWrite_busyErr (v : Word) (s : State) : (statusWrite v s).busyErr = (s.busyErr && !v[4]) := rfl
@[simp] theorem statusWrite_latOp (v : Word) (s : State) : (statusWrite v s).latOp = s.latOp := rfl
@[simp] theorem statusWrite_latA (v : Word) (s : State) : (statusWrite v s).latA = s.latA := rfl
@[simp] theorem statusWrite_latB (v : Word) (s : State) : (statusWrite v s).latB = s.latB := rfl
@[simp] theorem statusWrite_pending (v : Word) (s : State) : (statusWrite v s).pending = s.pending := rfl
@[simp] theorem statusWrite_response (v : Word) (s : State) : (statusWrite v s).response = s.response := rfl
@[simp] theorem statusWrite_openCount (v : Word) (s : State) : (statusWrite v s).openCount = s.openCount := rfl

/-! ### `accept op s` -/

@[simp] theorem accept_a (op : Op) (s : State) : (accept op s).a = s.a := rfl
@[simp] theorem accept_b (op : Op) (s : State) : (accept op s).b = s.b := rfl
@[simp] theorem accept_r (op : Op) (s : State) : (accept op s).r = s.r := rfl
@[simp] theorem accept_ctrlOp (op : Op) (s : State) : (accept op s).ctrlOp = s.ctrlOp := rfl
@[simp] theorem accept_busy (op : Op) (s : State) : (accept op s).busy = true := rfl
@[simp] theorem accept_done (op : Op) (s : State) : (accept op s).done = false := rfl
@[simp] theorem accept_ovf (op : Op) (s : State) : (accept op s).ovf = s.ovf := rfl
@[simp] theorem accept_ill (op : Op) (s : State) : (accept op s).ill = s.ill := rfl
@[simp] theorem accept_busyErr (op : Op) (s : State) : (accept op s).busyErr = s.busyErr := rfl
@[simp] theorem accept_latOp (op : Op) (s : State) : (accept op s).latOp = op := rfl
@[simp] theorem accept_latA (op : Op) (s : State) : (accept op s).latA = s.a := rfl
@[simp] theorem accept_latB (op : Op) (s : State) : (accept op s).latB = s.b := rfl
@[simp] theorem accept_pending (op : Op) (s : State) : (accept op s).pending = s.pending := rfl
@[simp] theorem accept_response (op : Op) (s : State) : (accept op s).response = s.response := rfl
@[simp] theorem accept_openCount (op : Op) (s : State) : (accept op s).openCount = s.openCount := rfl

/-! ### `writeResult res s` -/

@[simp] theorem writeResult_a (res : LimbVec × Bool) (s : State) : (writeResult res s).a = s.a := rfl
@[simp] theorem writeResult_b (res : LimbVec × Bool) (s : State) : (writeResult res s).b = s.b := rfl
@[simp] theorem writeResult_r (res : LimbVec × Bool) (s : State) : (writeResult res s).r = res.1.patterns := rfl
@[simp] theorem writeResult_ctrlOp (res : LimbVec × Bool) (s : State) : (writeResult res s).ctrlOp = s.ctrlOp := rfl
@[simp] theorem writeResult_busy (res : LimbVec × Bool) (s : State) : (writeResult res s).busy = false := rfl
@[simp] theorem writeResult_done (res : LimbVec × Bool) (s : State) : (writeResult res s).done = true := rfl
@[simp] theorem writeResult_ovf (res : LimbVec × Bool) (s : State) : (writeResult res s).ovf = (s.ovf || res.2) := rfl
@[simp] theorem writeResult_ill (res : LimbVec × Bool) (s : State) : (writeResult res s).ill = s.ill := rfl
@[simp] theorem writeResult_busyErr (res : LimbVec × Bool) (s : State) : (writeResult res s).busyErr = s.busyErr := rfl
@[simp] theorem writeResult_latOp (res : LimbVec × Bool) (s : State) : (writeResult res s).latOp = s.latOp := rfl
@[simp] theorem writeResult_latA (res : LimbVec × Bool) (s : State) : (writeResult res s).latA = s.latA := rfl
@[simp] theorem writeResult_latB (res : LimbVec × Bool) (s : State) : (writeResult res s).latB = s.latB := rfl
@[simp] theorem writeResult_pending (res : LimbVec × Bool) (s : State) : (writeResult res s).pending = s.pending := rfl
@[simp] theorem writeResult_response (res : LimbVec × Bool) (s : State) : (writeResult res s).response = s.response := rfl
@[simp] theorem writeResult_openCount (res : LimbVec × Bool) (s : State) : (writeResult res s).openCount = s.openCount := rfl

/-! ### `resetBlock s` -/

@[simp] theorem resetBlock_a (s : State) : (resetBlock s).a = Limbs.zero := rfl
@[simp] theorem resetBlock_b (s : State) : (resetBlock s).b = Limbs.zero := rfl
@[simp] theorem resetBlock_r (s : State) : (resetBlock s).r = Limbs.zero := rfl
@[simp] theorem resetBlock_ctrlOp (s : State) : (resetBlock s).ctrlOp = 0b00#2 := rfl
@[simp] theorem resetBlock_busy (s : State) : (resetBlock s).busy = false := rfl
@[simp] theorem resetBlock_done (s : State) : (resetBlock s).done = false := rfl
@[simp] theorem resetBlock_ovf (s : State) : (resetBlock s).ovf = false := rfl
@[simp] theorem resetBlock_ill (s : State) : (resetBlock s).ill = false := rfl
@[simp] theorem resetBlock_busyErr (s : State) : (resetBlock s).busyErr = false := rfl
@[simp] theorem resetBlock_latOp (s : State) : (resetBlock s).latOp = 0b00#2 := rfl
@[simp] theorem resetBlock_latA (s : State) : (resetBlock s).latA = Limbs.zero := rfl
@[simp] theorem resetBlock_latB (s : State) : (resetBlock s).latB = Limbs.zero := rfl
@[simp] theorem resetBlock_pending (s : State) : (resetBlock s).pending = s.pending := rfl
@[simp] theorem resetBlock_response (s : State) : (resetBlock s).response = s.response := rfl
@[simp] theorem resetBlock_openCount (s : State) : (resetBlock s).openCount = s.openCount := rfl

/-! ### `overlappedReset x s` -/

@[simp] theorem overlappedReset_a (x : Access) (s : State) : (overlappedReset x s).a = Limbs.zero := rfl
@[simp] theorem overlappedReset_b (x : Access) (s : State) : (overlappedReset x s).b = Limbs.zero := rfl
@[simp] theorem overlappedReset_r (x : Access) (s : State) : (overlappedReset x s).r = Limbs.zero := rfl
@[simp] theorem overlappedReset_ctrlOp (x : Access) (s : State) : (overlappedReset x s).ctrlOp = 0b00#2 := rfl
@[simp] theorem overlappedReset_busy (x : Access) (s : State) : (overlappedReset x s).busy = false := rfl
@[simp] theorem overlappedReset_done (x : Access) (s : State) : (overlappedReset x s).done = false := rfl
@[simp] theorem overlappedReset_ovf (x : Access) (s : State) : (overlappedReset x s).ovf = false := rfl
@[simp] theorem overlappedReset_ill (x : Access) (s : State) : (overlappedReset x s).ill = false := rfl
@[simp] theorem overlappedReset_busyErr (x : Access) (s : State) : (overlappedReset x s).busyErr = false := rfl
@[simp] theorem overlappedReset_latOp (x : Access) (s : State) : (overlappedReset x s).latOp = 0b00#2 := rfl
@[simp] theorem overlappedReset_latA (x : Access) (s : State) : (overlappedReset x s).latA = Limbs.zero := rfl
@[simp] theorem overlappedReset_latB (x : Access) (s : State) : (overlappedReset x s).latB = Limbs.zero := rfl
@[simp] theorem overlappedReset_pending (x : Access) (s : State) : (overlappedReset x s).pending = s.pending := rfl
@[simp] theorem overlappedReset_response (x : Access) (s : State) : (overlappedReset x s).response = some (Config.platformResponse s.openCount x) := rfl
@[simp] theorem overlappedReset_openCount (x : Access) (s : State) : (overlappedReset x s).openCount = s.openCount + 1 := rfl

end Sys2Proof.Machine
end

