-- ==== Sys2Proof/Laws/Step.lean ====
section
/-! SUPPORT. What each shared operation and each atomic step can do, said once. -/

namespace Sys2Proof.Machine

/-! ### Commands -/

@[simp] theorem exec_setop (op : Op) (s : State) : exec (.setop op) s = .next (storeOp op s) := rfl
@[simp] theorem exec_add (s : State) : exec .add s = .next (issue 0b00#2 s) := rfl
@[simp] theorem exec_sub (s : State) : exec .sub s = .next (issue 0b01#2 s) := rfl
@[simp] theorem exec_reduce (s : State) : exec .reduce s = .next (issue 0b10#2 s) := rfl
@[simp] theorem exec_reserved3 (s : State) : exec .reserved3 s = .next (issue 0b11#2 s) := rfl

theorem issue_of_busy {s : State} (op : Op) (h : s.busy = true) :
    issue op s = recordError .busyErr (storeOp op s) := by simp [issue, h]

theorem issue_reserved_of_idle {s : State} (h : s.busy = false) :
    issue 0b11#2 s = recordError .ill (storeOp 0b11#2 s) := by simp [issue, h]

theorem issue_of_idle {s : State} {op : Op} (h : s.busy = false) (hop : op ≠ 0b11#2) :
    issue op s = accept op (storeOp op s) := by simp [issue, h, hop]

/-- The three things an issued command can do (40_command.md R101). -/
theorem issue_cases (op : Op) (s : State) :
    (s.busy = true ∧ issue op s = recordError .busyErr (storeOp op s)) ∨
    (s.busy = false ∧ op = 0b11#2 ∧ issue op s = recordError .ill (storeOp op s)) ∨
    (s.busy = false ∧ op ≠ 0b11#2 ∧ issue op s = accept op (storeOp op s)) := by
  cases hb : s.busy
  · by_cases ho : op = 0b11#2
    · subst ho; exact .inr (.inl ⟨rfl, rfl, issue_reserved_of_idle hb⟩)
    · exact .inr (.inr ⟨rfl, ho, issue_of_idle hb ho⟩)
  · exact .inl ⟨rfl, issue_of_busy op hb⟩

/-- The command bits of a word decide its form (30_encoding.md R81). -/
theorem decodeCtrl_cases (v : Word) :
    (v[31] = false ∧ decodeCtrl v = .setop (v.extractLsb' 0 2)) ∨
    (v[31] = true ∧ v.extractLsb' 0 2 = 0b00#2 ∧ decodeCtrl v = .add) ∨
    (v[31] = true ∧ v.extractLsb' 0 2 = 0b01#2 ∧ decodeCtrl v = .sub) ∨
    (v[31] = true ∧ v.extractLsb' 0 2 = 0b10#2 ∧ decodeCtrl v = .reduce) ∨
    (v[31] = true ∧ v.extractLsb' 0 2 = 0b11#2 ∧ decodeCtrl v = .reserved3) := by
  cases hs : v[31] with
  | false => simp [decodeCtrl, hs]
  | true =>
    have : ∀ o : Op, o = 0b00#2 ∨ o = 0b01#2 ∨ o = 0b10#2 ∨ o = 0b11#2 := by decide
    unfold decodeCtrl
    rcases this (v.extractLsb' 0 2) with h | h | h | h <;> simp [h, hs]

/-- A CTRL write with START = 0 stores OP; one with START = 1 issues its OP (40_command.md R101). -/
theorem exec_decodeCtrl (v : Word) (s : State) :
    exec (decodeCtrl v) s =
      .next (if v[31] = true then issue (v.extractLsb' 0 2) s else storeOp (v.extractLsb' 0 2) s) := by
  rcases decodeCtrl_cases v with ⟨hs, hd⟩ | ⟨hs, ho, hd⟩ | ⟨hs, ho, hd⟩ | ⟨hs, ho, hd⟩ | ⟨hs, ho, hd⟩ <;> simp [*]

/-! ### Completion -/

theorem feExec_ne_none {op : Op} (a b : LimbVec) (h : op ≠ 0b11#2) : ∃ res, feExec op a b = some res := by
  have : ∀ o : Op, o = 0b00#2 ∨ o = 0b01#2 ∨ o = 0b10#2 ∨ o = 0b11#2 := by decide
  rcases this op with h' | h' | h' | h' <;> subst h' <;> simp [feExec] at *

theorem complete_of_feExec {s : State} {res : LimbVec × Bool} (h : feExec s.latOp s.latA.sints s.latB.sints = some res) :
    complete s = .next (writeResult res s) := by simp [complete, h]

/-- A completion that answers a next state wrote the result of the latched operation (40_command.md R105, R106). -/
theorem complete_next {s t : State} (h : complete s = .next t) :
    ∃ res, feExec s.latOp s.latA.sints s.latB.sints = some res ∧ t = writeResult res s := by
  unfold complete at h
  split at h
  · rename_i res hres
    exact ⟨res, hres, (Host.Outcome.next.inj h).symm⟩
  · exact absurd h (by simp)

/-- The unit's turn: a completion while busy, nothing while idle (40_command.md R100). -/
theorem unitTurn_next {s t : State} (h : unitTurn s = .next t) :
    (s.busy = true ∧ ∃ res, feExec s.latOp s.latA.sints s.latB.sints = some res ∧ t = writeResult res s) ∨
    (s.busy = false ∧ t = s) := by
  unfold unitTurn at h
  split at h
  · exact .inl ⟨‹_›, complete_next h⟩
  · exact .inr ⟨by simpa using ‹¬s.busy = true›, (Host.Outcome.next.inj h).symm⟩

/-! ### Host accesses -/

@[simp] theorem wordOfLanes_lane (v : Word) : wordOfLanes (lane v 0) (lane v 1) (lane v 2) (lane v 3) = v := by
  apply BitVec.eq_of_getLsbD_eq
  intro i hi
  simp only [wordOfLanes, lane, BitVec.getLsbD_append, BitVec.getLsbD_extractLsb']
  by_cases h0 : i < 8
  · simp [h0]
  by_cases h1 : i - 8 < 8
  · have e : 8 * 1 + (i - 8) = i := by omega
    simp [h0, h1, e]
  by_cases h2 : i - 8 - 8 < 8
  · have e : 8 * 2 + (i - 8 - 8) = i := by omega
    simp [h0, h1, h2, e]
  · have e : 8 * 3 + (i - 8 - 8 - 8) = i := by omega
    have h3 : i - 8 - 8 - 8 < 8 := by omega
    simp only [h0, h1, h2, h3, e, if_false, decide_true, Bool.true_and]

/-- The lanes of a word assemble to it (20_memory.md R56). -/
@[simp] theorem wordOfBytes_bytesOfWord (v : Word) : wordOfBytes (bytesOfWord v) = some v := by
  simp [wordOfBytes, bytesOfWord]

theorem wordOfBytes_eq_none_iff (bytes : List Byte) : wordOfBytes bytes = none ↔ bytes.length ≠ 4 := by
  match bytes with
  | [] => simp [wordOfBytes]
  | [_] => simp [wordOfBytes]
  | [_, _] => simp [wordOfBytes]
  | [_, _, _] => simp [wordOfBytes]
  | [_, _, _, _] => simp [wordOfBytes]
  | _ :: _ :: _ :: _ :: _ :: _ => simp [wordOfBytes]

/-- The bytes of an accepted write are the lanes of the word they assemble to (20_memory.md R56). -/
theorem bytesOfWord_of_wordOfBytes {bytes : List Byte} {v : Word} (h : wordOfBytes bytes = some v) :
    bytesOfWord v = bytes := by
  match bytes, h with
  | [b0, b1, b2, b3], h =>
    simp only [wordOfBytes, Option.some.injEq] at h
    subst h
    have h0 : lane (wordOfLanes b0 b1 b2 b3) 0 = b0 := by
      apply BitVec.eq_of_getLsbD_eq; intro i hi
      simp only [wordOfLanes, lane, BitVec.getLsbD_append, BitVec.getLsbD_extractLsb']
      simp [hi]
    have h1 : lane (wordOfLanes b0 b1 b2 b3) 1 = b1 := by
      apply BitVec.eq_of_getLsbD_eq; intro i hi
      simp only [wordOfLanes, lane, BitVec.getLsbD_append, BitVec.getLsbD_extractLsb']
      simp [hi]
    have h2 : lane (wordOfLanes b0 b1 b2 b3) 2 = b2 := by
      apply BitVec.eq_of_getLsbD_eq; intro i hi
      simp only [wordOfLanes, lane, BitVec.getLsbD_append, BitVec.getLsbD_extractLsb']
      have e1 : ¬ (8 * 2 + i < 8) := by omega
      have e2 : ¬ (8 * 2 + i - 8 < 8) := by omega
      have e3 : 8 * 2 + i - 8 - 8 < 8 := by omega
      have e4 : 8 * 2 + i - 8 - 8 = i := by omega
      simp [hi, e1, e2, e4]
    have h3 : lane (wordOfLanes b0 b1 b2 b3) 3 = b3 := by
      apply BitVec.eq_of_getLsbD_eq; intro i hi
      simp only [wordOfLanes, lane, BitVec.getLsbD_append, BitVec.getLsbD_extractLsb']
      have e1 : ¬ (8 * 3 + i < 8) := by omega
      have e2 : ¬ (8 * 3 + i - 8 < 8) := by omega
      have e3 : ¬ (8 * 3 + i - 8 - 8 < 8) := by omega
      have e4 : 8 * 3 + i - 8 - 8 - 8 = i := by omega
      simp [hi, e1, e2, e3, e4]
    simp [bytesOfWord, h0, h1, h2, h3]

/-- The register at an offset that some register has (20_memory.md R52). -/
@[simp] theorem ofOffset_off (g : Reg) : Reg.ofOffset g.off = g := by
  cases g with
  | a i => fin_cases i <;> rfl
  | b i => fin_cases i <;> rfl
  | r i => fin_cases i <;> rfl
  | ctrl => rfl
  | status => rfl

@[simp] theorem aligned_off (g : Reg) : aligned g.off = true := by
  cases g with
  | a i => fin_cases i <;> rfl
  | b i => fin_cases i <;> rfl
  | r i => fin_cases i <;> rfl
  | ctrl => rfl
  | status => rfl

/-- Every aligned offset is some register's (20_memory.md R52). -/
theorem off_ofOffset : ∀ off : Offset, aligned off = true → (Reg.ofOffset off).off = off := by decide +kernel

/-- A 32-bit read of a register (20_memory.md R57). -/
@[simp] theorem hostAccess_read (g : Reg) (s : State) :
    hostAccess (.read g.off 4) s = .next { s with response := some (.data (readReg g s)) } := by
  simp [hostAccess, busRead]

/-- A 32-bit write of a register (20_memory.md R58). -/
theorem hostAccess_write (g : Reg) (v : Word) (s : State) :
    hostAccess (.write g.off (bytesOfWord v)) s = busWrite g.off v { s with response := some .ack } := by
  simp [hostAccess]

/-- What a host access can do (20_memory.md R55, R57, R58): it is refused, it reads, or it writes one register. -/
theorem hostAccess_cases (x : Access) (s : State) :
    hostAccess x s = .next { s with response := some (.busError x.off) } ∨
    (∃ g, x = .read g.off 4 ∧ hostAccess x s = .next { s with response := some (.data (readReg g s)) }) ∨
    (∃ i v, x = .write (Reg.off (.a i)) (bytesOfWord v) ∧
      hostAccess x s = .next { s with response := some .ack, a := s.a.set i v }) ∨
    (∃ i v, x = .write (Reg.off (.b i)) (bytesOfWord v) ∧
      hostAccess x s = .next { s with response := some .ack, b := s.b.set i v }) ∨
    (∃ i v, x = .write (Reg.off (.r i)) (bytesOfWord v) ∧
      hostAccess x s = .next { s with response := some .ack }) ∨
    (∃ v, x = .write (Reg.off .status) (bytesOfWord v) ∧
      hostAccess x s = .next (statusWrite v { s with response := some .ack })) ∨
    (∃ v, x = .write (Reg.off .ctrl) (bytesOfWord v) ∧ v[31] = false ∧
      hostAccess x s = .next (storeOp (v.extractLsb' 0 2) { s with response := some .ack })) ∨
    (∃ v, x = .write (Reg.off .ctrl) (bytesOfWord v) ∧ v[31] = true ∧
      hostAccess x s = .next (issue (v.extractLsb' 0 2) { s with response := some .ack })) := by
  cases x with
  | read off n =>
    by_cases h : n = 4 ∧ aligned off = true
    · obtain ⟨rfl, ha⟩ := h
      refine .inr (.inl ⟨Reg.ofOffset off, ?_, ?_⟩)
      · rw [off_ofOffset off ha]
      · simp [hostAccess, busRead, ha]
    · exact .inl (by simp [hostAccess, h, refuseAccess, Access.off])
  | write off bytes =>
    cases hw : wordOfBytes bytes with
    | none => exact .inl (by simp [hostAccess, hw, refuseAccess, Access.off])
    | some v =>
      cases ha : aligned off with
      | false => exact .inl (by simp [hostAccess, hw, ha, refuseAccess, Access.off])
      | true =>
        have hb := bytesOfWord_of_wordOfBytes hw
        have ho := off_ofOffset off ha
        subst hb
        refine .inr (.inr ?_)
        cases hg : Reg.ofOffset off with
        | a i => exact .inl ⟨i, v, by rw [← hg, ho], by simp [hostAccess, ha, busWrite, hg]⟩
        | b i => exact .inr (.inl ⟨i, v, by rw [← hg, ho], by simp [hostAccess, ha, busWrite, hg]⟩)
        | r i => exact .inr (.inr (.inl ⟨i, v, by rw [← hg, ho], by simp [hostAccess, ha, busWrite, hg]⟩))
        | status => exact .inr (.inr (.inr (.inl ⟨v, by rw [← hg, ho], by simp [hostAccess, ha, busWrite, hg]⟩)))
        | ctrl =>
          refine .inr (.inr (.inr (.inr ?_)))
          cases hs : v[31] with
          | false =>
            exact .inl ⟨v, by rw [← hg, ho], hs, by simp [hostAccess, ha, busWrite, hg, exec_decodeCtrl, hs]⟩
          | true =>
            exact .inr ⟨v, by rw [← hg, ho], hs, by simp [hostAccess, ha, busWrite, hg, exec_decodeCtrl, hs]⟩

/-- A host access always answers a next state (60_exceptions.md R160). -/
theorem hostAccess_next (x : Access) (s : State) : ∃ t, hostAccess x s = .next t := by
  rcases hostAccess_cases x s with h | ⟨_, _, h⟩ | ⟨_, _, _, h⟩ | ⟨_, _, _, h⟩ | ⟨_, _, _, h⟩ | ⟨_, _, h⟩ |
    ⟨_, _, _, h⟩ | ⟨_, _, _, h⟩ <;> exact ⟨_, h⟩

/-- What a host access that answered a next state did: the ten outcomes of 20_memory.md R55, R57, R58 and 40_command.md R101 to R104. -/
theorem hostAccess_inv {x : Access} {s t : State} (h : hostAccess x s = .next t) :
    (t = { s with response := some (.busError x.off) }) ∨
    (∃ g, t = { s with response := some (.data (readReg g s)) }) ∨
    (∃ i v, (Event.access x).writes (.a i) v ∧ t = { s with response := some .ack, a := s.a.set i v }) ∨
    (∃ i v, (Event.access x).writes (.b i) v ∧ t = { s with response := some .ack, b := s.b.set i v }) ∨
    (t = { s with response := some .ack }) ∨
    (∃ v, (Event.access x).writes .status v ∧ t = statusWrite v { s with response := some .ack }) ∨
    (∃ v, (Event.access x).writes .ctrl v ∧ v[31] = false ∧
      t = storeOp (v.extractLsb' 0 2) { s with response := some .ack }) ∨
    (∃ v, (Event.access x).writes .ctrl v ∧ v[31] = true ∧ s.busy = true ∧
      t = recordError .busyErr (storeOp (v.extractLsb' 0 2) { s with response := some .ack })) ∨
    (∃ v, (Event.access x).writes .ctrl v ∧ v[31] = true ∧ s.busy = false ∧ v.extractLsb' 0 2 = 0b11#2 ∧
      t = recordError .ill (storeOp (v.extractLsb' 0 2) { s with response := some .ack })) ∨
    (∃ v, (Event.access x).writes .ctrl v ∧ v[31] = true ∧ s.busy = false ∧ v.extractLsb' 0 2 ≠ 0b11#2 ∧
      t = accept (v.extractLsb' 0 2) (storeOp (v.extractLsb' 0 2) { s with response := some .ack })) := by
  have key : ∀ u, hostAccess x s = .next u → t = u := fun u hu => by rw [h] at hu; cases hu; rfl
  rcases hostAccess_cases x s with h' | ⟨g, hxe, h'⟩ | ⟨i, v, hxe, h'⟩ | ⟨i, v, hxe, h'⟩ | ⟨i, v, hxe, h'⟩ | ⟨v, hxe, h'⟩ |
      ⟨v, hxe, hs, h'⟩ | ⟨v, hxe, hs, h'⟩ <;> have ht := key _ h'
  · exact .inl ht
  · exact .inr (.inl ⟨g, ht⟩)
  · exact .inr (.inr (.inl ⟨i, v, by simp [Event.writes, hxe], ht⟩))
  · exact .inr (.inr (.inr (.inl ⟨i, v, by simp [Event.writes, hxe], ht⟩)))
  · exact .inr (.inr (.inr (.inr (.inl ht))))
  · exact .inr (.inr (.inr (.inr (.inr (.inl ⟨v, by simp [Event.writes, hxe], ht⟩)))))
  · exact .inr (.inr (.inr (.inr (.inr (.inr (.inl ⟨v, by simp [Event.writes, hxe], hs, ht⟩))))))
  · have hw : (Event.access x).writes .ctrl v := by simp [Event.writes, hxe]
    refine .inr (.inr (.inr (.inr (.inr (.inr (.inr ?_))))))
    rcases issue_cases (v.extractLsb' 0 2) { s with response := some .ack } with
      ⟨hb, h⟩ | ⟨hb, ho, h⟩ | ⟨hb, ho, h⟩ <;> rw [h] at ht
    · exact .inl ⟨v, hw, hs, hb, ht⟩
    · exact .inr (.inl ⟨v, hw, hs, hb, ho, ht⟩)
    · exact .inr (.inr ⟨v, hw, hs, hb, ho, ht⟩)

/-- The unit's turn while busy writes the result of the latched operation (40_command.md R105). -/
theorem unitTurn_of_busy {s t : State} (h : unitTurn s = .next t) (hb : s.busy = true) :
    ∃ res, feExec s.latOp s.latA.sints s.latB.sints = some res ∧ t = writeResult res s := by
  rcases unitTurn_next h with ⟨_, h⟩ | ⟨h, _⟩
  · exact h
  · simp [hb] at h

/-- No host access disturbs a command in flight (40_command.md R102, R104). -/
theorem hostAccess_keeps_command {x : Access} {s t : State} (h : hostAccess x s = .next t) (hb : s.busy = true) :
    t.busy = true ∧ t.latOp = s.latOp ∧ t.latA = s.latA ∧ t.latB = s.latB ∧ t.r = s.r ∧ t.done = s.done := by
  rcases hostAccess_inv h with rfl | ⟨_, rfl⟩ | ⟨_, _, _, rfl⟩ | ⟨_, _, _, rfl⟩ | rfl | ⟨_, _, rfl⟩ | ⟨_, _, _, rfl⟩ |
    ⟨_, _, _, _, rfl⟩ | ⟨_, _, _, hi, _⟩ | ⟨_, _, _, hi, _⟩ <;> simp_all

/-- No host access touches the schedule or the model's counter (log 2, log 4). -/
theorem hostAccess_keeps_schedule {x : Access} {s t : State} (h : hostAccess x s = .next t) :
    t.pending = s.pending ∧ t.openCount = s.openCount := by
  rcases hostAccess_inv h with rfl | ⟨_, rfl⟩ | ⟨_, _, _, rfl⟩ | ⟨_, _, _, rfl⟩ | rfl | ⟨_, _, rfl⟩ | ⟨_, _, _, rfl⟩ |
    ⟨_, _, _, _, rfl⟩ | ⟨_, _, _, _, _, rfl⟩ | ⟨_, _, _, _, _, rfl⟩ <;> exact ⟨rfl, rfl⟩

/-! ### Steps -/

@[simp] theorem perform_access (x : Access) (s : State) : perform (.access x) s = hostAccess x s := rfl
@[simp] theorem perform_unit (s : State) : perform .unit s = unitTurn s := rfl
@[simp] theorem perform_reset (s : State) : perform .reset s = .next (resetBlock s) := rfl
@[simp] theorem perform_resetAccess (x : Access) (s : State) :
    perform (.resetAccess x) s = .next (overlappedReset x s) := rfl

/-- A write to CTRL runs the form its word decodes to (40_command.md R101). -/
theorem perform_write_ctrl (v : Word) (s : State) :
    perform (.access (.write 0x78#7 (bytesOfWord v))) s = exec (decodeCtrl v) { s with response := some .ack } :=
  hostAccess_write .ctrl v s

theorem step_of_pending {s : State} {e : Event} {rest : List Event} (h : s.pending = e :: rest) :
    step s = perform e { s with pending := rest } := by simp [step, nextEvent, h]

theorem step_of_busy {s : State} (h : s.pending = []) (hb : s.busy = true) : step s = perform .unit s := by
  cases s; simp_all [step, nextEvent]

theorem step_of_idle {s : State} (h : s.pending = []) (hb : s.busy = false) : step s = .next s := by
  simp [step, nextEvent, h, hb]

/-- A step performs an event, or leaves an idle block with nothing scheduled as it is (20_memory.md R62, log 2). -/
theorem step_cases (s : State) :
    (∃ e, nextEvent s = some e ∧ step s = perform e { s with pending := s.pending.tail }) ∨
    (nextEvent s = none ∧ step s = .next s) := by
  unfold step
  cases h : nextEvent s with
  | none => exact .inr ⟨rfl, rfl⟩
  | some e => exact .inl ⟨e, rfl, rfl⟩

@[simp] theorem core_step : Sys2Proof.core.step = step := rfl
@[simp] theorem core_reset : Sys2Proof.core.reset = State.reset := rfl

end Sys2Proof.Machine
end

