-- ==== Sys2Proof/Laws/Host.lean ====
section
/-! SUPPORT. The host layer over the machine (30_encoding.md R88, R89). -/

namespace Sys2Proof.Machine

/-- Taking an event at once is performing it (log 2). -/
@[simp] theorem stepWith_eq (e : Event) (s : State) : stepWith e s = perform e s := by
  unfold stepWith
  rw [step_of_pending rfl]

/-- `WR` of a register (30_encoding.md R88). -/
@[simp] theorem hostAccess_wr (g : Reg) (v : Word) (s : State) :
    hostAccess (wrAccess g v) s = busWrite g.off v { s with response := some .ack } := hostAccess_write g v s

/-- `RD` of a register (30_encoding.md R88). -/
@[simp] theorem hostAccess_rd (g : Reg) (s : State) :
    hostAccess (rdAccess g) s = .next { s with response := some (.data (readReg g s)) } := hostAccess_read g s

@[simp] theorem performAll_nil (s : State) : performAll [] s = .next s := rfl

/-- Events performed one after another (20_memory.md R62). -/
theorem performAll_cons {e : Event} {s t : State} (es : List Event) (h : perform e s = .next t) :
    performAll (e :: es) s = performAll es t := by
  simp [performAll, h]

/-! ### Turns of the host -/

/-- A host turn at a `WR` line of a literal. -/
theorem turn_wr_lit {h : HostRun} {g : Reg} {v : Word} {s t : State}
    (hl : h.program[h.line]? = some (.wr g (.lit v)))
    (ha : hostAccess (wrAccess g v) s = .next t) : System.turn .host ⟨h, s⟩ = .next ⟨h.advance, t⟩ := by
  simp [System.turn, HostRun.move, hl, HostRun.value, ha, HostRun.answered, -hostAccess_wr]

/-- A host turn at an `RD` line. -/
theorem turn_rd {h : HostRun} {g : Reg} {x : Nat} (s : State) (hl : h.program[h.line]? = some (.rd g x)) :
    System.turn .host ⟨h, s⟩ =
      .next ⟨(h.assign x (readReg g s)).advance, { s with response := some (.data (readReg g s)) }⟩ := by
  simp [System.turn, HostRun.move, hl, HostRun.answered, Response.readData]

/-- The first turn of a schedule, then the rest. -/
theorem run_cons {k : Turn} {y z : System} (ts : List Turn) (h : y.turn k = .next z) :
    System.run (k :: ts) y = System.run ts z := by
  simp [System.run, h]

/-- `WR` lines of literals, from any line of a program on. -/
theorem run_wr_lines (f : Fin 10 → Reg) (v : Fin 10 → Word) (is : List (Fin 10)) (h : HostRun) (s t : State)
    (hp : ∃ q, h.program = q ++ is.map (fun i => HostLine.wr (f i) (.lit (v i))) ∧ q.length = h.line)
    (ht : performAll (is.map fun i => .access (wrAccess (f i) (v i))) s = .next t) :
    System.run (List.replicate is.length .host) ⟨h, s⟩ = .next ⟨{ h with line := h.line + is.length }, t⟩ := by
  induction is generalizing h s with
  | nil => cases ht; rfl
  | cons i is ih =>
    obtain ⟨q, hq, hl⟩ := hp
    obtain ⟨u, hu⟩ := hostAccess_next (wrAccess (f i) (v i)) s
    have hu' : perform (.access (wrAccess (f i) (v i))) s = .next u := hu
    rw [List.map_cons, performAll_cons _ hu'] at ht
    rw [List.length_cons, List.replicate_succ, run_cons _ (turn_wr_lit (by simp [hq, ← hl]) hu),
      ih h.advance u ⟨q ++ [.wr (f i) (.lit (v i))], by simp [HostRun.advance, hq], by simp [HostRun.advance, hl]⟩ ht]
    simp [HostRun.advance]
    omega

/-- `RD` lines of R. -/
theorem run_rd_lines (names : Limbs Nat) (is : List (Fin 10)) (h : HostRun) (s : State)
    (hp : ∃ q, h.program = q ++ is.map (fun i => HostLine.rd (.r i) (names.get i)) ∧ q.length = h.line) :
    ∃ q, System.run (List.replicate is.length .host) ⟨h, s⟩ =
      .next ⟨⟨h.program, h.line + is.length, (is.map fun i => (names.get i, s.r.get i)).reverse ++ h.vars⟩,
        { s with response := q }⟩ ∧ (is ≠ [] → ∃ w, q = some (.data w)) := by
  induction is generalizing h s with
  | nil => exact ⟨s.response, rfl, by simp⟩
  | cons i is ih =>
    obtain ⟨q, hq, hl⟩ := hp
    obtain ⟨r, hr, hd⟩ := ih (h.assign (names.get i) (readReg (.r i) s)).advance
      { s with response := some (.data (readReg (.r i) s)) }
      ⟨q ++ [.rd (.r i) (names.get i)], by simp [HostRun.advance, HostRun.assign, hq],
        by simp [HostRun.advance, HostRun.assign, hl]⟩
    by_cases hc : is = []
    · subst hc
      refine ⟨some (.data (readReg (.r i) s)), ?_, fun _ => ⟨_, rfl⟩⟩
      rw [List.length_cons, List.replicate_succ, run_cons _ (turn_rd (g := .r i) (x := names.get i) s (by simp [hq, ← hl]))]; rfl
    · refine ⟨r, ?_, fun _ => hd hc⟩
      rw [List.length_cons, List.replicate_succ, run_cons _ (turn_rd (g := .r i) (x := names.get i) s (by simp [hq, ← hl])), hr]
      simp [HostRun.advance, HostRun.assign, readReg]
      omega

end Sys2Proof.Machine
end

