-- ==== Sys2Proof/Laws/PerInstr.lean ====
section
/-! SUPPORT. One statement about every command form as syntax: its word is its row of the opcode table, and no other row's (30_encoding.md R85). -/

namespace Sys2Proof.Laws

/-- The match and mask of a form's row (30_encoding.md R85). -/
def tableRow (i : Instr) : Word × Word :=
  match i with
  | .setop _ => (0x00000000#32, 0x80000000#32)
  | .add => (0x80000000#32, 0x80000003#32)
  | .sub => (0x80000001#32, 0x80000003#32)
  | .reduce => (0x80000002#32, 0x80000003#32)
  | .reserved3 => (0x80000003#32, 0x80000003#32)

/-- The five rows of the opcode table, as match and mask (30_encoding.md R85). -/
def tableRows : List (Word × Word) :=
  [(0x00000000#32, 0x80000000#32), (0x80000000#32, 0x80000003#32), (0x80000001#32, 0x80000003#32),
    (0x80000002#32, 0x80000003#32), (0x80000003#32, 0x80000003#32)]

/-- The encoded form is in its own row and in no other. -/
def TableRow.Statement (i : Instr) : Prop :=
  i.wf = true → (tableRows.filter fun row => encode i &&& row.2 == row.1) = [tableRow i]

theorem TableRow.setop (op : Op) : TableRow.Statement (.setop op) := by
  revert op; unfold TableRow.Statement; decide

theorem TableRow.add : TableRow.Statement .add := by unfold TableRow.Statement; decide

theorem TableRow.sub : TableRow.Statement .sub := by unfold TableRow.Statement; decide

theorem TableRow.reduce : TableRow.Statement .reduce := by unfold TableRow.Statement; decide

theorem TableRow.reserved3 : TableRow.Statement .reserved3 := by unfold TableRow.Statement; decide

end Sys2Proof.Laws
end

