-- ==== Sys2Proof/Laws/Reduce.lean ====
section
/-! SUPPORT. Reductions that report no overflow: every step of them was exact (42_reduce.md R140 to R145). -/

namespace Sys2Proof.Machine

/-- An added carry after which no overflow is noted fitted, and there was none before (42_reduce.md R141 to R143). -/
theorem addCarry_noOvf {w : Work} {i : Fin 10} {c : Int} (h : (addCarry w i c).ovf = false) :
    w.ovf = false ∧ (-2147483648 ≤ w.x.get i + c ∧ w.x.get i + c ≤ 2147483647) ∧
      addCarry w i c = ⟨w.x.set i (w.x.get i + c), false⟩ := by
  have h' : w.ovf = false ∧ outOfRange (w.x.get i + c) = false := by simpa [addCarry, addw] using h
  have hr := outOfRange_eq_false_iff.mp h'.2
  exact ⟨h'.1, hr, by rw [addCarry_exact w i c hr.1 hr.2, h'.1]⟩

/-- A carry step after which no overflow is noted is exact, and there was none before (42_reduce.md R140). -/
theorem carryStep_noOvf {w : Work} {i : Fin 10} (hr : -2147483648 ≤ w.x.get i) (h : (carryStep w i).1.ovf = false) :
    w.ovf = false ∧ w.x.get i + half i ≤ 2147483647 ∧
      carryStep w i = (⟨w.x.set i (w.x.get i - exactCarry i (w.x.get i) * (2 ^ width i : Nat)), false⟩,
        exactCarry i (w.x.get i)) := by
  have h' : w.ovf = false ∧ outOfRange (w.x.get i + half i) = false := by
    simp only [carryStep, Bool.or_eq_false_iff] at h
    exact ⟨h.1.1.1, h.1.1.2⟩
  have hr2 := outOfRange_eq_false_iff.mp h'.2
  exact ⟨h'.1, hr2.2, by rw [carryStep_exact w i hr hr2.2, h'.1]⟩

/-- A link of the chain after which no overflow is noted is exact (42_reduce.md R142). -/
theorem chainStep_noOvf {w : Work} {i : Fin 9} (hr : -2147483648 ≤ w.x.get i.castSucc)
    (h : (chainStep w i).ovf = false) :
    w.ovf = false ∧ w.x.get i.castSucc + half i.castSucc ≤ 2147483647 ∧
      (-2147483648 ≤ w.x.get i.succ + exactCarry i.castSucc (w.x.get i.castSucc) ∧
        w.x.get i.succ + exactCarry i.castSucc (w.x.get i.castSucc) ≤ 2147483647) ∧
      chainStep w i =
        ⟨(w.x.set i.castSucc
            (w.x.get i.castSucc - exactCarry i.castSucc (w.x.get i.castSucc) * (2 ^ width i.castSucc : Nat))).set
            i.succ (w.x.get i.succ + exactCarry i.castSucc (w.x.get i.castSucc)), false⟩ := by
  unfold chainStep at h ⊢
  obtain ⟨h1, -, -⟩ := addCarry_noOvf h
  obtain ⟨h2, h3, h4⟩ := carryStep_noOvf hr h1
  rw [h4] at h ⊢
  obtain ⟨-, h5, h6⟩ := addCarry_noOvf h
  have hne : i.succ ≠ i.castSucc := by simp [Fin.ext_iff]
  simp only [Limbs.get_set_of_ne _ _ hne] at h5 h6
  exact ⟨h2, h3, h5, h6⟩

/-- A fold of limb 9 after which no overflow is noted is exact (42_reduce.md R141, R143). -/
theorem foldTop_noOvf {w : Work} (hr : -2147483648 ≤ w.x.x9) (h : (foldTop w).ovf = false) :
    w.ovf = false ∧ w.x.x9 + 16777216 ≤ 2147483647 ∧
      -2147483648 ≤ w.x.x0 + 19 * exactCarry 9 w.x.x9 ∧ w.x.x0 + 19 * exactCarry 9 w.x.x9 ≤ 2147483647 ∧
      foldTop w =
        ⟨{ w.x with x0 := w.x.x0 + 19 * exactCarry 9 w.x.x9, x9 := w.x.x9 - 33554432 * exactCarry 9 w.x.x9 },
          false⟩ := by
  unfold foldTop at h ⊢
  obtain ⟨h1, -, -⟩ := addCarry_noOvf h
  obtain ⟨h1a, h1b⟩ := Bool.or_eq_false_iff.mp h1
  obtain ⟨h2, h3, h4⟩ := carryStep_noOvf (i := 9) hr h1a
  have e : (Limbs.get w.x 9) = w.x.x9 := rfl
  rw [h4, e] at h ⊢
  rw [e] at h3
  have h3' : w.x.x9 + 16777216 ≤ 2147483647 := h3
  have hm : mulw 19 (exactCarry 9 w.x.x9) = ⟨19 * exactCarry 9 w.x.x9, false⟩ := by
    apply narrow_of_inRange <;> norm_num [exactCarry, width, half] <;> omega
  simp only [hm] at h ⊢
  obtain ⟨-, h5, h6⟩ := addCarry_noOvf h
  refine ⟨h2, h3', h5.1, h5.2, ?_⟩
  rw [h6]
  have e2 : exactCarry 9 w.x.x9 * ((2 ^ width 9 : Nat) : Int) = 33554432 * exactCarry 9 w.x.x9 := by
    norm_num [width]
    ring
  rw [e2]; rfl

/-- Where FE_REDUCE reports no overflow, neither of the passes before the last did (42_reduce.md R145). -/
theorem feReduce_noOvf_inv (a : LimbVec) (h : (feReduce a).2 = false) :
    (pass1 ⟨a, false⟩).ovf = false ∧ (pass2Chain (pass1 ⟨a, false⟩)).ovf = false := by
  have hchain : (pass2Chain (pass1 ⟨a, false⟩)).ovf = false := by
    by_contra hc
    have := foldTop_ovf_of_ovf (w := pass2Chain (pass1 ⟨a, false⟩)) (by simpa using hc)
    rw [show (feReduce a).2 = (foldTop (pass2Chain (pass1 ⟨a, false⟩))).ovf from rfl, this] at h
    cases h
  refine ⟨?_, hchain⟩
  by_contra hc
  have := pass2Chain_ovf_of_ovf (w := pass1 ⟨a, false⟩) (by simpa using hc)
  simp [this] at hchain

/-- A link after which no overflow is noted had none before it. -/
theorem chainStep_noOvf_before {w : Work} {i : Fin 9} (hw : (chainStep w i).ovf = false) : w.ovf = false := by
  by_contra hc
  have := chainStep_ovf_of_ovf i (w := w) (by simpa using hc)
  simp [this] at hw

end Sys2Proof.Machine
end

