-- ==== Sys2Proof/Tests/Slice0.lean ====
section
/-! SUPPORT. Tests of the model on values that spec/ gives (30_encoding.md R80, R85; the vectors of 95_test_vectors.md), ill-formed terms that the checks refuse, and for every obligation with hypotheses a concrete input that meets them. -/

namespace Sys2Proof.Machine

/-! ### Helpers -/

/-- The limb vector that is v at limb i and 0 elsewhere. -/
def lone (i : Fin 10) (v : Int) : LimbVec := (Limbs.all 0).set i v

/-- The state after reset with the operand files loaded. -/
def loaded (a b : LimbVec) : State := { State.reset with a := a.patterns, b := b.patterns }

/-- A state with a command in flight. -/
def inFlight (op : Op) (a b : LimbVec) : State :=
  { State.reset with busy := true, latOp := op, latA := a.patterns, latB := b.patterns }

/-- The outcome is a next state that has the property. -/
def nextHas (o : Host.Outcome State Fault Refusal) (p : State → Bool) : Bool :=
  match o with
  | .next t => p t
  | .fault _ => false
  | .refused _ => false

/-- A 32-bit write of v to the register g. -/
def wr (g : Reg) (v : Word) : Event := .access (wrAccess g v)

/-! ### Decoding: words written out bit by bit from the patterns of 30_encoding.md R85 -/

theorem test_decode_setop :
    decodeCtrl 0b00000000000000000000000000000010#32 = .setop 0b10#2 ∧
    decodeCtrl 0b01111111111111111111111111111111#32 = .setop 0b11#2 := by decide

theorem test_decode_add :
    decodeCtrl 0b10000000000000000000000000000000#32 = .add ∧
    decodeCtrl 0b11111111111111111111111111111100#32 = .add := by decide

theorem test_decode_sub :
    decodeCtrl 0b10000000000000000000000000000001#32 = .sub ∧
    decodeCtrl 0b10101010101010101010101010101001#32 = .sub := by decide

theorem test_decode_reduce :
    decodeCtrl 0b10000000000000000000000000000010#32 = .reduce ∧
    decodeCtrl 0b11000000000000000000000000000110#32 = .reduce := by decide

theorem test_decode_reserved3 :
    decodeCtrl 0b10000000000000000000000000000011#32 = .reserved3 ∧
    decodeCtrl 0b11111111111111111111111111111111#32 = .reserved3 := by decide

/-- The matches of the five rows of the opcode table, as the host numbers their bits. -/
theorem test_decodeTableWord :
    decodeTableWord 32 0x00000000 = some (.setop 0b00#2) ∧ decodeTableWord 32 0x80000000 = some .add ∧
    decodeTableWord 32 0x80000001 = some .sub ∧ decodeTableWord 32 0x80000002 = some .reduce ∧
    decodeTableWord 32 0x80000003 = some .reserved3 := by decide

/-- Bytes of another number are no command (R87; 20_memory.md R53). -/
theorem test_decode_refuses_one_byte : decodeBytes [0x80#8] = .error (.notFourBytes 1) := by decide

/-- A placed word is run by the very next step. -/
theorem test_withFetchWord_runs :
    step (State.reset.withFetchWord 32 0x80000002) = exec .reduce { State.reset with response := some .ack } := rfl

/-! ### Well-formedness: one ill-formed host program for each check -/

theorem test_two_lines_with_one_label_refused :
    labelsUnique [.label 0, .label 0] = false ∧ hostProgramWf [.label 0, .label 0] = false := by decide

theorem test_branch_without_label_refused :
    branchesMarked [.rd .status 0, .bnz 0 0 1] = false ∧ hostProgramWf [.rd .status 0, .bnz 0 0 1] = false := by decide

theorem test_variable_never_read_refused :
    usesRead [] [.wr (.a 0) (.var 0)] = false ∧ hostProgramWf [.wr (.a 0) (.var 0)] = false := by decide

/-- FWAIT's expansion is well formed (R89). -/
theorem test_fwait_wellFormed : hostProgramWf (expand (.fwait 0 0)) = true := by decide

/-! ### One step of each form; each value is from the vector named in the comment -/

/-- IF-1. -/
theorem test_setop_stores_op : nextHas (perform (wr .ctrl 0x00000002#32) State.reset) (fun t =>
    readReg .ctrl t == 0x00000002#32 && readReg .status t == 0x00000000#32) = true := by decide

/-- IF-2: no ILL with START = 0. -/
theorem test_setop_of_reserved_op : nextHas (perform (wr .ctrl 0x00000003#32) State.reset) (fun t =>
    readReg .ctrl t == 0x00000003#32 && readReg .status t == 0x00000000#32) = true := by decide

/-- IF-4: bits 30:2 are ignored; the command is accepted. -/
theorem test_add_ignores_reserved_bits : nextHas (perform (wr .ctrl 0xFFFFFFFC#32) State.reset) (fun t =>
    t.latOp == 0b00#2 && readReg .status t == 0x00000001#32 && readReg .ctrl t == 0x00000000#32) = true := by decide

/-- ADD-11: only the overflowing lane wraps. -/
theorem test_add_completes :
    nextHas (perform .unit (inFlight 0b00#2 ⟨2147483647, 1, 2, 3, 4, 5, 6, 7, 8, 9⟩ (Limbs.all 1))) (fun t =>
      t.r == Limbs.patterns ⟨-2147483648, 2, 3, 4, 5, 6, 7, 8, 9, 10⟩ && readReg .status t == 0x00000006#32) = true := by
  decide +kernel

/-- SUB-4: negating −2^31 overflows. -/
theorem test_sub_overflows :
    nextHas (perform .unit (inFlight 0b01#2 (Limbs.all 0) (lone 0 (-2147483648)))) (fun t =>
      t.r.get 0 == 0x80000000#32 && t.ovf) = true := by decide +kernel

/-- SUB-6: −2^31 is reached without overflow; the operands are not swapped. -/
theorem test_sub_reaches_minimum :
    nextHas (perform .unit (inFlight 0b01#2 (lone 3 (-1073741824)) (lone 3 1073741824))) (fun t =>
      t.r == (lone 3 (-2147483648)).patterns && !t.ovf) = true := by decide +kernel

/-- RED-22: the carry out of limb 9 in pass 2 is folded, with no carry step on limb 0 after it. -/
theorem test_reduce_folds_the_top_carry :
    nextHas (perform .unit (inFlight 0b10#2 ⟨33554431, 0, 0, 0, 0, 0, 0, 0, 67108864, 16777215⟩ (Limbs.all 0)))
      (fun t => t.r == Limbs.patterns ⟨33554450, 0, 0, 0, 0, 0, 0, 0, 0, -16777216⟩ && !t.ovf) = true := by
  decide +kernel

/-- RED-25: every limb at its minimum; the carries run on wrapped values. -/
theorem test_reduce_overflows :
    nextHas (perform .unit (inFlight 0b10#2 (Limbs.all (-2147483648)) (Limbs.all 0))) (fun t =>
      t.r == Limbs.patterns ⟨-1216, -32, -64, -32, -64, -32, -64, -32, -64, -32⟩ && t.ovf) = true := by
  decide +kernel

/-- RED-28: the reference that R145 is stated against gives the spec's limbs, and one result of it does not fit. -/
theorem test_tracedReduce_overflows :
    (tracedReduce (Limbs.all 2113928019)).limbs =
      ⟨-33554432, -1229, 33553298, -1166, 33553298, -1166, 33553298, -1166, 33553298, -1166⟩ ∧
    ∃ n ∈ (tracedReduce (Limbs.all 2113928019)).met, DoesNotFit n := by
  unfold DoesNotFit; decide +kernel

/-- IF-3. -/
theorem test_reserved3_while_idle : nextHas (perform (wr .ctrl 0x80000003#32) State.reset) (fun t =>
    readReg .status t == 0x00000008#32 && readReg .ctrl t == 0x00000003#32) = true := by decide

/-- IF-5: BUSYERR, not ILL. -/
theorem test_reserved3_while_busy :
    nextHas (perform (wr .ctrl 0x80000003#32) (inFlight 0b00#2 (Limbs.all 0) (Limbs.all 0))) (fun t =>
      readReg .status t == 0x00000011#32 && readReg .ctrl t == 0x00000003#32 && t.latOp == 0b00#2) = true := by decide

/-! ### The register interface -/

/-- IF-9: only ILL clears. -/
theorem test_status_w1c :
    nextHas (perform (wr .status 0x00000008#32)
        { State.reset with done := true, ovf := true, ill := true, busyErr := true })
      (fun t => readReg .status t == 0x00000016#32) = true := by decide

/-- IF-12: a misaligned read is refused with read data 0. -/
theorem test_misaligned_read :
    nextHas (perform (.access (.read 0x02#7 4)) (loaded (lone 0 0x11223344) (Limbs.all 0))) (fun t =>
      t.response == some (.busError 0x02#7) && t.a.get 0 == 0x11223344#32) = true := by decide

/-- IF-14: byte lane 0 carries the low byte. -/
theorem test_byte_lanes :
    nextHas (perform (.access (.write 0x00#7 [0x44#8, 0x33#8, 0x22#8, 0x11#8])) State.reset) (fun t =>
      readReg (.a 0) t == 0x11223344#32) = true := by decide

/-! ### Witnesses: inputs that meet the hypotheses of the obligations, one for each clause -/

theorem witness_EncodeThenDecode : (Instr.setop 0b11#2).wf = true ∧ Instr.reduce.wf = true := by decide

theorem witness_OnlyFourBytesAreACommand :
    ([0x03#8, 0x00#8, 0x00#8, 0x80#8] : List Byte).length = 4 ∧ ([0x03#8, 0x00#8, 0x00#8] : List Byte).length ≠ 4 := by
  decide

theorem witness_DecodeCtrlFollowsTheRule :
    (0x7FFFFFFF#32)[31] = false ∧
    ((0x80000000#32)[31] = true ∧ (0x80000000#32).extractLsb' 0 2 = 0b00#2) ∧
    ((0x80000001#32)[31] = true ∧ (0x80000001#32).extractLsb' 0 2 = 0b01#2) ∧
    ((0x80000002#32)[31] = true ∧ (0x80000002#32).extractLsb' 0 2 = 0b10#2) ∧
    ((0xFFFFFFFF#32)[31] = true ∧ (0xFFFFFFFF#32).extractLsb' 0 2 = 0b11#2) ∧
    ((0xFFFFFFFF#32)[31] = (0x80000003#32)[31] ∧
      (0xFFFFFFFF#32).extractLsb' 0 2 = (0x80000003#32).extractLsb' 0 2) := by decide

theorem witness_StepTakesTheNextEvent :
    (State.reset.withFetchWord 32 0x80000000).pending =
      .access (.write 0x78#7 [0x00#8, 0x00#8, 0x00#8, 0x80#8]) :: [] ∧
    ((inFlight 0b00#2 (Limbs.all 0) (Limbs.all 0)).pending = [] ∧
      (inFlight 0b00#2 (Limbs.all 0) (Limbs.all 0)).busy = true) ∧
    (State.reset.pending = [] ∧ State.reset.busy = false) := by decide

theorem witness_StepRunsTheDecodedCommand :
    (State.reset.withFetchWord 32 0x80000003).pending =
      .access (.write 0x78#7 [0x03#8, 0x00#8, 0x00#8, 0x80#8]) :: [] ∧
    decodeBytes [0x03#8, 0x00#8, 0x00#8, 0x80#8] = .ok .reserved3 ∧ Instr.reserved3.wf = true := by decide

theorem witness_StepRunsAnEncodedCommand : (Instr.setop 0b01#2).wf = true := by decide

theorem witness_ResetAbandonsTheCommandInFlight : ∃ t,
    perform .unit (inFlight 0b01#2 (lone 0 7) (Limbs.all 1)) = .next t ∧
    (inFlight 0b01#2 (lone 0 7) (Limbs.all 1)).busy = true ∧ t.busy = false ∧ Event.unit.isReset = false :=
  ⟨_, rfl, rfl, rfl, rfl⟩

theorem witness_SetopOnlyStoresOp : 0x7FFFFFFF#32 &&& 0x80000000#32 = 0x00000000#32 := by decide

theorem witness_CommandWhileBusyIsDropped :
    (0x80000001#32)[31] = true ∧ (inFlight 0b10#2 (Limbs.all 0) (Limbs.all 0)).busy = true := by decide

theorem witness_Reserved3WhileIdleSetsIll :
    0xFFFFFFFF#32 &&& 0x80000003#32 = 0x80000003#32 ∧ State.reset.busy = false := by decide

theorem witness_AcceptanceLatchesTheOperands :
    (loaded (lone 0 7) (Limbs.all 1)).busy = false ∧
    ∃ t s' t', (inFlight 0b00#2 (lone 0 7) (Limbs.all 1)).busy = true ∧
      perform (wr (.a 0) 9#32) (inFlight 0b00#2 (lone 0 7) (Limbs.all 1)) = .next t ∧
      perform .unit (inFlight 0b00#2 (lone 0 7) (Limbs.all 1)) = .next s' ∧ perform .unit t = .next t' :=
  ⟨rfl, _, _, _, rfl, rfl, rfl, rfl⟩

theorem witness_CompletionWritesTheResult :
    ((inFlight 0b00#2 (lone 9 7) (Limbs.all 1)).busy = true ∧ (inFlight 0b00#2 (lone 9 7) (Limbs.all 1)).latOp = 0b00#2) ∧
    ((inFlight 0b01#2 (lone 9 7) (Limbs.all 1)).busy = true ∧ (inFlight 0b01#2 (lone 9 7) (Limbs.all 1)).latOp = 0b01#2) ∧
    ((inFlight 0b10#2 (lone 9 7) (Limbs.all 1)).busy = true ∧ (inFlight 0b10#2 (lone 9 7) (Limbs.all 1)).latOp = 0b10#2) ∧
    State.reset.busy = false := by decide

theorem witness_AddCommand :
    0xFFFFFFFC#32 &&& 0x80000003#32 = 0x80000000#32 ∧ (loaded (Limbs.all 1) (Limbs.all 2)).busy = false ∧
    (inFlight 0b00#2 (Limbs.all 1) (Limbs.all 2)).busy = true := by decide

theorem witness_SubCommand :
    0xFFFFFFFD#32 &&& 0x80000003#32 = 0x80000001#32 ∧ (loaded (Limbs.all 1) (Limbs.all 2)).busy = false ∧
    (inFlight 0b00#2 (Limbs.all 1) (Limbs.all 2)).busy = true ∧
    ((lone 9 (-2147483648)).get 9 = -2147483648 ∧ (lone 9 1).get 9 = 1) ∧
    ((lone 9 0).get 9 = 0 ∧ (lone 9 (-2147483648)).get 9 = -2147483648) := by decide

theorem witness_ReduceCommand :
    0xFFFFFFFE#32 &&& 0x80000003#32 = 0x80000002#32 ∧ (loaded (Limbs.all 1) (Limbs.all 2)).busy = false ∧
    (inFlight 0b00#2 (Limbs.all 1) (Limbs.all 2)).busy = true ∧
    (Work.mk (lone 0 33554432) false).x.get 0 = half 0 ∧ (Work.mk (lone 9 (-16777216)) false).x.get 9 = -half 9 ∧
    ((lone 9 0x7FFFFFFF).InRange ∧ (lone 9 0x7FFFFFFF).get 9 = 0x7FFFFFFF) := by
  unfold Limbs.InRange; decide

theorem witness_OvfOfOneCommand :
    ({ State.reset with ovf := true } : State).busy = false ∧ (0x00000004#32)[2] = true := by decide

/-- ADD-5 and SUB-6. -/
theorem witness_AddSubValueLaw :
    (feAdd (Limbs.all 1073741823) (Limbs.all 1073741823)).2 = false ∧
    (feSub (lone 3 (-1073741824)) (lone 3 1073741824)).2 = false := by decide +kernel

theorem witness_AddSubNoOverflowBound :
    ((∀ i, -1073741824 ≤ (Limbs.all (-1073741824 : Int)).get i ∧ (Limbs.all (-1073741824 : Int)).get i ≤ 1073741823) ∧
      ∀ i, -1073741824 ≤ (Limbs.all (1073741823 : Int)).get i ∧ (Limbs.all (1073741823 : Int)).get i ≤ 1073741823) ∧
    ((Limbs.all (33554451 : Int)).Within 33554451 ∧ (Limbs.all (-33554451 : Int)).Within 33554451) := by
  unfold Limbs.Within; decide +kernel

theorem witness_ChainsOverReducedVectorsDoNotOverflow :
    let long : List (Bool × LimbVec) := List.replicate 62 (true, Limbs.all 33554451)
    let short : List (Bool × LimbVec) := List.replicate 60 (false, Limbs.all 33554451)
    (Limbs.all (33554451 : Int)).Within 33554451 ∧
    ((∀ q ∈ long, q.2.Within 33554451) ∧ long.length + 1 ≤ 63) ∧
    ((∀ q ∈ short, q.2.Within 33554451) ∧ short.length + 1 ≤ 61) := by
  unfold Limbs.Within; decide +kernel

/-- ADD-3 at completion for OVF, RESERVED3 while idle for ILL, ADD while busy for BUSYERR. -/
theorem witness_ErrorCodesAreStatusBits :
    ((inFlight 0b00#2 (lone 0 2147483647) (lone 0 1)).busy = true ∧
      feExec (inFlight 0b00#2 (lone 0 2147483647) (lone 0 1)).latOp
        (inFlight 0b00#2 (lone 0 2147483647) (lone 0 1)).latA.sints
        (inFlight 0b00#2 (lone 0 2147483647) (lone 0 1)).latB.sints = some (lone 0 (-2147483648), true)) ∧
    (State.reset.busy = false ∧ (0xFFFFFFFF#32)[31] = true ∧ (0xFFFFFFFF#32).extractLsb' 0 2 = 0b11#2) ∧
    ((inFlight 0b10#2 (Limbs.all 0) (Limbs.all 0)).busy = true ∧ (0x80000000#32)[31] = true) := by decide +kernel

theorem witness_CarryStepRoundsToNearest :
    let w : Work := ⟨⟨2113929215, 2130706431, 0, 0, 0, 0, 0, 0, 0, -2147483648⟩, false⟩
    (1 : Fin 10) ≠ 0 ∧ ¬DoesNotFit (w.x.get 0 + half 0) ∧
    (-2147483648 ≤ w.x.get 0 ∧ w.x.get 0 + half 0 ≤ 2147483647) ∧
    (-2147483648 ≤ w.x.get 1 ∧ w.x.get 1 + half 1 ≤ 2147483647) ∧
    (-2147483648 ≤ w.x.get 9 ∧ w.x.get 9 + half 9 ≤ 2147483647) := by
  unfold DoesNotFit; decide +kernel

/-- RED-26. -/
theorem witness_ReduceComputesTheExactCarryChain :
    (Limbs.all (2113928018 : Int)).InRange ∧ (feReduce (Limbs.all 2113928018)).2 = false := by
  unfold Limbs.InRange; decide +kernel

/-- RED-27. -/
theorem witness_ReduceValueLaw :
    (Limbs.all (-2113928018 : Int)).InRange ∧ (feReduce (Limbs.all (-2113928018))).2 = false := by
  unfold Limbs.InRange; decide +kernel

theorem witness_ReduceOutputBounds :
    (Limbs.all (-2080374784 : Int)).Within 2080374784 ∧ (9 : Fin 10).val % 2 = 1 ∧
    (8 : Fin 10).val % 2 = 0 ∧ (8 : Fin 10) ≠ 0 := by
  unfold Limbs.Within; decide +kernel

theorem witness_ReduceNoOverflowBound :
    (Limbs.all (2080374784 : Int)).Within 2080374784 ∧ (Limbs.all (-2113928018 : Int)).Within 2113928018 ∧
    (9 : Fin 10).val % 2 = 1 ∧ (0 : Fin 10).val % 2 = 0 := by
  unfold Limbs.Within; decide +kernel

theorem witness_ReduceOutputIsNotCanonical : (Limbs.all (2080374784 : Int)).Within 2080374784 := by
  unfold Limbs.Within; decide +kernel

theorem witness_ReduceFixedPoints :
    Limbs.Settled ⟨33554431, -16777216, 33554431, 16777215, -33554432, 0, 0, 0, 0, -16777216⟩ ∧
    ((lone 0 67108864).Within 2080374784 ∧ (9 : Fin 10) ≠ 0 ∧ (exactReduce (lone 0 67108864)).carries.x9 = 0) := by
  unfold Limbs.Settled Limbs.Within; decide +kernel

theorem witness_WritesStoreTheRegisters : (9 : Fin 10) ≠ 0 := by decide

theorem witness_RefusedAccesses :
    ((2 ≠ 4 ∨ (0x7C#7).extractLsb' 0 2 ≠ 0b00#2) ∧ (4 ≠ 4 ∨ (0x7D#7).extractLsb' 0 2 ≠ 0b00#2)) ∧
    (([0xFF#8] : List Byte).length ≠ 4 ∨ (0x00#7).extractLsb' 0 2 ≠ 0b00#2) ∧
    (0x7C#7).extractLsb' 0 2 = 0b00#2 := by decide

theorem witness_EveryWordOffsetIsARegister :
    (0x24#7).extractLsb' 0 2 = 0b00#2 ∧ (Reg.a 9).off = (0x24#7 : Offset) ∧ (Reg.b 0).off = (0x28#7 : Offset) := by
  decide

theorem witness_WindowOffsets :
    windowOffset Config.feBase = some 0x00#7 ∧ windowOffset (Config.feBase + 0x7F) = some 0x7F#7 ∧
    windowOffset (Config.feBase + 0x80) = none := by
  simp [windowOffset]

theorem witness_CtrlReservedBitsAreIgnored :
    0xFFFFFFFE#32 &&& 0x80000003#32 = 0x80000002#32 &&& 0x80000003#32 := by decide

theorem witness_IdempotentAccesses :
    ((∀ v : Word, v[31] = true → Access.read 0x78#7 4 ≠ .write 0x78#7 (bytesOfWord v)) ∧
      ∃ t, perform (.access (.read 0x78#7 4)) State.reset = .next t) ∧
    ((∀ v : Word, v[31] = true → Access.write 0x7C#7 (bytesOfWord 0x1C#32) ≠ .write 0x78#7 (bytesOfWord v)) ∧
      ∃ t, perform (.access (.write 0x7C#7 (bytesOfWord 0x1C#32))) State.reset = .next t) ∧
    (State.reset.busy = false ∧ (0x80000000#32)[31] = true ∧ (0x80000000#32).extractLsb' 0 2 ≠ 0b11#2) :=
  ⟨⟨fun _ _ h => by simp at h, _, rfl⟩, ⟨fun _ _ h => by simp at h, _, rfl⟩, by decide⟩

/-- Each sticky flag cleared by its STATUS bit and set by its cause. -/
theorem witness_StickyFlagsChangeOnlyAsStated :
    (∃ t, perform (wr .status 0x00000004#32) { State.reset with ovf := true } = .next t ∧ t.ovf = false) ∧
    (∃ t, perform (wr .status 0x00000008#32) { State.reset with ill := true } = .next t ∧ t.ill = false) ∧
    (∃ t, perform (wr .status 0x00000010#32) { State.reset with busyErr := true } = .next t ∧ t.busyErr = false) ∧
    (∃ t, perform .unit (inFlight 0b00#2 (lone 0 2147483647) (lone 0 1)) = .next t ∧
      (inFlight 0b00#2 (lone 0 2147483647) (lone 0 1)).ovf = false ∧ t.ovf = true) ∧
    (∃ t, perform (wr .ctrl 0x80000003#32) State.reset = .next t ∧ State.reset.ill = false ∧ t.ill = true) ∧
    (∃ t, perform (wr .ctrl 0x80000000#32) (inFlight 0b10#2 (Limbs.all 0) (Limbs.all 0)) = .next t ∧
      (inFlight 0b10#2 (Limbs.all 0) (Limbs.all 0)).busyErr = false ∧ t.busyErr = true) :=
  ⟨⟨_, rfl, rfl⟩, ⟨_, rfl, rfl⟩, ⟨_, rfl, rfl⟩, ⟨_, rfl, rfl, by decide +kernel⟩, ⟨_, rfl, rfl, rfl⟩, ⟨_, rfl, rfl, rfl⟩⟩

theorem witness_BusyAndDoneChangeOnlyAsStated :
    (∃ t, perform (wr .ctrl 0x80000002#32) { State.reset with done := true } = .next t ∧
      ({ State.reset with done := true } : State).busy = false ∧ t.busy = true ∧ t.done = false) ∧
    (∃ t, perform .unit (inFlight 0b10#2 (Limbs.all 0) (Limbs.all 0)) = .next t ∧
      (inFlight 0b10#2 (Limbs.all 0) (Limbs.all 0)).busy = true ∧ t.busy = false ∧
      (inFlight 0b10#2 (Limbs.all 0) (Limbs.all 0)).done = false ∧ t.done = true) :=
  ⟨⟨_, rfl, rfl, rfl, rfl⟩, ⟨_, rfl, rfl, rfl, rfl, rfl⟩⟩

theorem witness_OperandFilesChangeOnlyByHostWrites :
    (∃ t, perform (wr (.a 9) 0xFFFFFFFF#32) State.reset = .next t ∧ t.a.get 9 ≠ State.reset.a.get 9) ∧
    (∃ t, perform (wr (.b 0) 0xFFFFFFFF#32) State.reset = .next t ∧ t.b.get 0 ≠ State.reset.b.get 0) :=
  ⟨⟨_, rfl, by decide⟩, ⟨_, rfl, by decide⟩⟩

theorem witness_ResultChangesOnlyAtCompletion : ∃ t,
    perform .unit (inFlight 0b10#2 (lone 9 2147483647) (Limbs.all 0)) = .next t ∧
    t.r ≠ (inFlight 0b10#2 (lone 9 2147483647) (Limbs.all 0)).r :=
  ⟨_, rfl, by decide +kernel⟩

theorem witness_LatchChangesOnlyAtAcceptance : ∃ t,
    perform (wr .ctrl 0x80000000#32) (loaded (Limbs.all 1) (Limbs.all 0)) = .next t ∧
    ¬(t.latOp = (loaded (Limbs.all 1) (Limbs.all 0)).latOp ∧ t.latA = (loaded (Limbs.all 1) (Limbs.all 0)).latA ∧
      t.latB = (loaded (Limbs.all 1) (Limbs.all 0)).latB) :=
  ⟨_, rfl, by decide⟩

theorem witness_IdleLatchIsInvisible :
    State.reset.busy = false ∧ ({ State.reset with latOp := 0b10#2, latA := Limbs.one } : State).busy = false ∧
    State.reset.eraseLatch = ({ State.reset with latOp := 0b10#2, latA := Limbs.one } : State).eraseLatch := by decide

theorem witness_StepKeepsTheInvariant :
    (State.reset.withFetchWord 32 0x80000003).Inv ∧ ∃ t, step (State.reset.withFetchWord 32 0x80000003) = .next t :=
  ⟨by unfold State.Inv; decide, _, rfl⟩

theorem witness_StepAlwaysAnswersNext : (inFlight 0b10#2 (Limbs.all 0) (Limbs.all 0)).Inv := by
  unfold State.Inv; decide

theorem witness_CommandInFlightCompletes :
    let s : State := { inFlight 0b10#2 (Limbs.all 0) (Limbs.all 0) with pending := [wr (.a 0) 1#32, .unit] }
    s.Inv ∧ s.busy = true ∧ ∀ e ∈ s.pending, e.isReset = false := by
  unfold State.Inv; decide

theorem witness_ResultIsAFunctionOfTheLatch :
    (inFlight 0b01#2 (lone 0 (-2147483648)) (lone 0 1)).Inv ∧ (inFlight 0b01#2 (lone 0 (-2147483648)) (lone 0 1)).busy = true := by
  unfold State.Inv; decide

theorem witness_LoadOrderIsFree :
    let names : Limbs Nat := ⟨0, 1, 2, 3, 4, 5, 6, 7, 8, 9⟩
    ([9, 0, 1, 2, 3, 4, 5, 6, 7, 8] : List (Fin 10)).Perm limbOrder ∧
    ∀ i j, names.get i = names.get j → i = j := by decide

end Sys2Proof.Machine
end

section
/-! The checked 32-bit primitives (00_scope.md R13): one rule for the narrowing that addw, subw, mulw and shlw share, and the floor law of asr. -/

namespace Sys2Proof.Machine

/-- The rule every checked primitive takes from `narrow` (00_scope.md R13). -/
theorem narrow_val_eq_bmod_and_ovf_iff (t : Int) :
    (narrow t).val = t.bmod (2 ^ 32) ∧ ((narrow t).ovf = true ↔ t < -2147483648 ∨ 2147483647 < t) :=
  ⟨wrap32_eq_bmod t, outOfRange_eq_true_iff⟩

/-- shlw narrows the product with a power of two of the integers, not of the naturals. -/
theorem shlw_eq_narrow (c : Int) (n : Nat) : shlw c n = narrow (c * 2 ^ n) := by
  simp [shlw]

/-- asr is the floor of the quotient: the one integer q with q · 2^n ≤ t < (q + 1) · 2^n (00_scope.md R13). -/
theorem asr_floor (t : Int) (n : Nat) : asr t n * 2 ^ n ≤ t ∧ t < (asr t n + 1) * 2 ^ n := by
  have hpos : (0 : Int) < 2 ^ n := by positivity
  have hasr : asr t n = t / 2 ^ n := by simp [asr]
  rw [hasr]
  exact ⟨Int.ediv_mul_le t hpos.ne', Int.lt_ediv_add_one_mul_self t hpos⟩

/-- Settles O23: addw, subw, mulw and shlw each narrow their exact result, and asr is the floor. -/
theorem checkedPrimitives : Obligations.CheckedPrimitives := by
  refine ⟨fun a b => ?_, fun c n => ?_, asr_floor⟩
  · obtain ⟨addVal, addOvf⟩ := narrow_val_eq_bmod_and_ovf_iff (a + b)
    obtain ⟨subVal, subOvf⟩ := narrow_val_eq_bmod_and_ovf_iff (a - b)
    obtain ⟨mulVal, mulOvf⟩ := narrow_val_eq_bmod_and_ovf_iff (a * b)
    exact ⟨addVal, addOvf, subVal, subOvf, mulVal, mulOvf⟩
  · rw [shlw_eq_narrow]
    exact narrow_val_eq_bmod_and_ovf_iff (c * 2 ^ n)

end Sys2Proof.Machine
end

section
/-! The CTRL register and reset (10_state.md R27, R41): a CTRL write is decided by bits 31, 1 and 0 of its word, whatever its form it stores OP, and a reset event gives every field of the block its reset value. -/

namespace Sys2Proof.Machine

/-! ### The bits of a CTRL write that take part (10_state.md R27) -/

theorem start_and_commandMask (v : Word) : (v &&& 0x80000003#32)[31] = v[31] := by
  simp [BitVec.getElem_and]

theorem op_and_commandMask (v : Word) : (v &&& 0x80000003#32).extractLsb' 0 2 = v.extractLsb' 0 2 := by
  have hmask : (0x80000003#32).extractLsb' 0 2 = BitVec.allOnes 2 := by decide
  rw [BitVec.extractLsb'_and, hmask, BitVec.and_allOnes]

/-- Decoding looks at START and OP alone (30_encoding.md R81). -/
theorem decodeCtrl_congr {v v' : Word} (hstart : v'[31] = v[31])
    (hop : v'.extractLsb' 0 2 = v.extractLsb' 0 2) : decodeCtrl v' = decodeCtrl v := by
  simp only [decodeCtrl, hstart, hop]

/-- Clearing bits 30:2 does not change the command form. -/
theorem decodeCtrl_and_commandMask (v : Word) : decodeCtrl (v &&& 0x80000003#32) = decodeCtrl v :=
  decodeCtrl_congr (start_and_commandMask v) (op_and_commandMask v)

/-! ### What CTRL reads back -/

/-- An issued command stores its OP, whether it is accepted or not (40_command.md R101). -/
@[simp] theorem issue_ctrlOp (op : Op) (s : State) : (issue op s).ctrlOp = op := by
  rcases issue_cases op s with ⟨_, h⟩ | ⟨_, _, h⟩ | ⟨_, _, h⟩ <;> simp [h]

/-- Every CTRL write stores its two low bits into CTRL.OP (10_state.md R25). -/
theorem exec_decodeCtrl_stores_op (v : Word) (s : State) :
    ∃ t, exec (decodeCtrl v) s = .next t ∧ t.ctrlOp = v.extractLsb' 0 2 := by
  refine ⟨_, exec_decodeCtrl v s, ?_⟩
  split <;> simp

theorem ctrlPattern_op (v : Word) : ctrlPattern (v.extractLsb' 0 2) = v &&& 0x00000003#32 := by
  apply BitVec.eq_of_toNat_eq
  have hmask : v.toNat &&& 3 = v.toNat % 4 := Nat.and_two_pow_sub_one_eq_mod v.toNat 2
  have hlt : v.toNat % 4 < 4294967296 := by omega
  simp [ctrlPattern, hmask, Nat.mod_eq_of_lt hlt]

/-- Settles O42: the word and the word with bits 30:2 cleared decode to one form, and that form stores OP. -/
theorem ctrlReservedBitsAreIgnored : Obligations.CtrlReservedBitsAreIgnored := by
  refine ⟨fun v v' s h => ?_, fun v s => ?_⟩
  · have hdecode : decodeCtrl v = decodeCtrl v' := by
      rw [← decodeCtrl_and_commandMask v, h, decodeCtrl_and_commandMask]
    rw [perform_write_ctrl, perform_write_ctrl, hdecode]
  · obtain ⟨t, hwrite, hop⟩ := exec_decodeCtrl_stores_op v { s with response := some .ack }
    refine ⟨t, _, (perform_write_ctrl v s).trans hwrite, hostAccess_read .ctrl t, ?_⟩
    simp [readReg, hop, ctrlPattern_op]

/-! ### Reset -/

/-- The reset event meets the reset values of 10_state.md R41 in any state. -/
theorem resetBlock_atReset (s : State) : (resetBlock s).AtReset := by
  constructor <;> simp

/-- A reset event in the reset state changes nothing. -/
theorem resetBlock_reset : resetBlock State.reset = State.reset := rfl

/-- Settles O9: State.reset is what a reset event makes of itself, so one fact about reset events serves both parts. -/
theorem resetValues : Obligations.ResetValues :=
  ⟨resetBlock_reset ▸ resetBlock_atReset State.reset, fun s => ⟨_, perform_reset s, resetBlock_atReset s⟩⟩

end Sys2Proof.Machine
end

section
/-! The register interface (20_memory.md R53 to R58): which accesses are refused, and what a 32-bit read or write of each register does. -/

namespace Sys2Proof.Machine

/-! ### Refused and accepted accesses (20_memory.md R53 to R55) -/

theorem aligned_iff (off : Offset) : aligned off = true ↔ off.extractLsb' 0 2 = 0b00#2 := by
  simp [aligned]

theorem hostAccess_read_refused {off : Offset} {n : Nat} (s : State)
    (h : n ≠ 4 ∨ off.extractLsb' 0 2 ≠ 0b00#2) : hostAccess (.read off n) s = refuseAccess off s := by
  have hreject : ¬(n = 4 ∧ aligned off = true) := by
    rw [aligned_iff]
    exact not_and_or.mpr h
  simp [hostAccess, hreject]

theorem hostAccess_read_of_aligned {off : Offset} (s : State) (h : off.extractLsb' 0 2 = 0b00#2) :
    hostAccess (.read off 4) s = busRead off s := by
  simp [hostAccess, (aligned_iff off).mpr h]

theorem hostAccess_write_of_aligned {off : Offset} (v : Word) (s : State) (h : off.extractLsb' 0 2 = 0b00#2) :
    hostAccess (.write off (bytesOfWord v)) s = busWrite off v { s with response := some .ack } := by
  simp [hostAccess, (aligned_iff off).mpr h]

/-- A write is refused for its size, where its bytes make no word, or for its alignment. -/
theorem hostAccess_write_refused {off : Offset} {bytes : List Byte} (s : State)
    (h : bytes.length ≠ 4 ∨ off.extractLsb' 0 2 ≠ 0b00#2) :
    hostAccess (.write off bytes) s = refuseAccess off s := by
  cases hword : wordOfBytes bytes with
  | none => simp [hostAccess, hword]
  | some v =>
    have hsize : bytes.length = 4 := by
      by_contra hne
      simp [(wordOfBytes_eq_none_iff bytes).mpr hne] at hword
    have hmisaligned : ¬aligned off = true := by
      rw [aligned_iff]
      exact h.resolve_left (not_not.mpr hsize)
    simp [hostAccess, hword, hmisaligned]

/-- Settles O38: one lemma for each outcome, refused or performed, of a read and of a write. -/
theorem refusedAccesses : Obligations.RefusedAccesses := fun s _ =>
  ⟨fun _ => hostAccess_read_refused s, fun _ => hostAccess_write_refused s, rfl,
    hostAccess_read_of_aligned s, fun v => hostAccess_write_of_aligned v s⟩

/-! ### Reads (20_memory.md R57) -/

/-- The offset of A[i] as the register map writes it, with A's base 0x00 (20_memory.md R52). -/
theorem off_a (i : Fin 10) : BitVec.ofNat 7 (0x00 + 4 * i.val) = Reg.off (.a i) := by
  rw [Nat.zero_add, Reg.off]

/-- CTRL reads as the number in OP. -/
theorem ctrlPattern_eq_ofNat (op : Op) : ctrlPattern op = BitVec.ofNat 32 op.toNat :=
  (BitVec.ofNat_toNat 32 op).symm

/-- STATUS reads as the sum of its five flags, each with the weight of its bit (10_state.md R28). -/
theorem statusPattern_eq_ofNat : ∀ busyErr ill ovf done busy : Bool,
    statusPattern busyErr ill ovf done busy =
      BitVec.ofNat 32 (16 * busyErr.toNat + 8 * ill.toNat + 4 * ovf.toNat + 2 * done.toNat + busy.toNat) := by
  decide

/-- Settles O36: every offset of the map is a register's, so the rule for reading a register gives each part. -/
theorem readsReturnTheRegisters : Obligations.ReadsReturnTheRegisters := by
  refine fun s => ⟨fun i => ⟨?_, hostAccess_read (.b i) s, hostAccess_read (.r i) s⟩, ?_, ?_⟩
  · rw [off_a]
    exact hostAccess_read (.a i) s
  · rw [← ctrlPattern_eq_ofNat]
    exact hostAccess_read .ctrl s
  · rw [← statusPattern_eq_ofNat]
    exact hostAccess_read .status s

/-! ### Writes (20_memory.md R58) -/

@[simp] theorem busWrite_a (i : Fin 10) (v : Word) (s : State) :
    busWrite (Reg.off (.a i)) v s = .next { s with a := s.a.set i v } := by
  simp [busWrite]

@[simp] theorem busWrite_b (i : Fin 10) (v : Word) (s : State) :
    busWrite (Reg.off (.b i)) v s = .next { s with b := s.b.set i v } := by
  simp [busWrite]

/-- A write to the result file is ignored. -/
@[simp] theorem busWrite_r (i : Fin 10) (v : Word) (s : State) : busWrite (Reg.off (.r i)) v s = .next s := by
  simp [busWrite]

@[simp] theorem busWrite_status (v : Word) (s : State) :
    busWrite (Reg.off .status) v s = .next (statusWrite v s) := by
  simp [busWrite]

/-- A STATUS write clears each sticky flag whose bit is 1 and touches nothing else (10_state.md R35). -/
theorem statusWrite_eq_ite (v : Word) (s : State) :
    statusWrite v s =
      { s with
        ovf := if v[2] = true then false else s.ovf
        ill := if v[3] = true then false else s.ill
        busyErr := if v[4] = true then false else s.busyErr } := by
  have hclear : ∀ flag clear : Bool, (flag && !clear) = if clear = true then false else flag := by decide
  simp only [statusWrite, hclear]

/-- Settles O37: each offset is a register's, and a write of a register is its `busWrite`. -/
theorem writesStoreTheRegisters : Obligations.WritesStoreTheRegisters := by
  refine fun s v => ⟨fun i => ⟨?_, ?_, ?_, Limbs.get_set_self s.a i v, fun _ => Limbs.get_set_of_ne s.a v⟩,
    perform_write_ctrl v s, ?_⟩
  · rw [off_a]
    exact (hostAccess_write (.a i) v s).trans (busWrite_a i v _)
  · exact (hostAccess_write (.b i) v s).trans (busWrite_b i v _)
  · exact (hostAccess_write (.r i) v s).trans (busWrite_r i v _)
  · have hstatus := (hostAccess_write .status v s).trans (busWrite_status v _)
    rwa [statusWrite_eq_ite] at hstatus

end Sys2Proof.Machine
end

section
/-! Decoding (30_encoding.md R81): one equation of `decodeCtrl` for each of the five lines of DecodeCtrl. -/

namespace Sys2Proof.Machine

/-! ### The lines of DecodeCtrl -/

section
variable {v : Word}

theorem decodeCtrl_of_start_clear (hstart : v[31] = false) : decodeCtrl v = .setop (v.extractLsb' 0 2) := by
  simp [decodeCtrl, hstart]

theorem decodeCtrl_of_start_add (hstart : v[31] = true) (hop : v.extractLsb' 0 2 = 0b00#2) :
    decodeCtrl v = .add := by
  simp [decodeCtrl, hstart, hop]

theorem decodeCtrl_of_start_sub (hstart : v[31] = true) (hop : v.extractLsb' 0 2 = 0b01#2) :
    decodeCtrl v = .sub := by
  simp [decodeCtrl, hstart, hop]

theorem decodeCtrl_of_start_reduce (hstart : v[31] = true) (hop : v.extractLsb' 0 2 = 0b10#2) :
    decodeCtrl v = .reduce := by
  simp [decodeCtrl, hstart, hop]

theorem decodeCtrl_of_start_reserved3 (hstart : v[31] = true) (hop : v.extractLsb' 0 2 = 0b11#2) :
    decodeCtrl v = .reserved3 := by
  simp [decodeCtrl, hstart, hop]

end

/-- Settles O2: the equation of each line, and that START and OP alone decide the form. -/
theorem decodeCtrlFollowsTheRule : Obligations.DecodeCtrlFollowsTheRule := fun _ =>
  ⟨decodeCtrl_of_start_clear, decodeCtrl_of_start_add, decodeCtrl_of_start_sub, decodeCtrl_of_start_reduce,
    decodeCtrl_of_start_reserved3, fun _ => decodeCtrl_congr⟩

end Sys2Proof.Machine
end

section
/-! Commands (40_command.md R101 to R104, R109): what a CTRL write of each form does, in the order of its checks. -/

namespace Sys2Proof.Machine

/-! ### The order of the checks (40_command.md R101) -/

/-- BUSY is checked before the reserved OP; the next state of each outcome, written out. -/
theorem issue_eq_ite (op : Op) (s : State) :
    issue op s =
      if s.busy = true then { s with ctrlOp := op, busyErr := true }
      else if op = 0b11#2 then { s with ctrlOp := op, ill := true }
      else { s with ctrlOp := op, latOp := op, latA := s.a, latB := s.b, busy := true, done := false } := rfl

theorem exec_decodeCtrl_of_start {v : Word} (s : State) (hstart : v[31] = true) :
    exec (decodeCtrl v) s = .next (issue (v.extractLsb' 0 2) s) := by
  rw [exec_decodeCtrl, if_pos hstart]

/-- Settles O15: START picks between storing OP and issuing it, and the checks of an issue follow in their order. -/
theorem ctrlWriteIsOneStep : Obligations.CtrlWriteIsOneStep := by
  refine fun v s => ⟨perform_write_ctrl v s, ?_⟩
  rw [exec_decodeCtrl, issue_eq_ite]
  cases v[31] with
  | false => rfl
  | true => rfl

/-! ### SETOP (40_command.md R109) -/

theorem start_clear_of_and_startMask {v : Word} (h : v &&& 0x80000000#32 = 0x00000000#32) : v[31] = false := by
  have hbit : (v &&& 0x80000000#32)[31] = false := by rw [h]; decide
  simpa [BitVec.getElem_and] using hbit

/-- The CTRL write of 40_command.md R109's example, in any state. -/
theorem perform_write_setop_reduce (s : State) :
    perform (.access (.write 0x78#7 (bytesOfWord 0x00000002#32))) s =
      .next (storeOp 0b10#2 { s with response := some .ack }) := by
  rw [perform_write_ctrl, decodeCtrl_of_start_clear (by decide)]
  rfl

/-- Settles O12: a word with START clear is a SETOP, SETOP is `storeOp`, and STATUS has no part in what `storeOp` writes. -/
theorem setopOnlyStoresOp : Obligations.SetopOnlyStoresOp :=
  ⟨fun _ h => decodeCtrl_of_start_clear (start_clear_of_and_startMask h), exec_setop,
    fun s => ⟨_, perform_write_setop_reduce s, rfl, rfl⟩⟩

/-! ### A command while busy (40_command.md R102) -/

/-- Every command form while busy: OP is stored and BUSYERR set, the reserved OP included. -/
theorem exec_decodeCtrl_of_busy {v : Word} {s : State} (hstart : v[31] = true) (hbusy : s.busy = true) :
    exec (decodeCtrl v) s = .next { s with ctrlOp := v.extractLsb' 0 2, busyErr := true } :=
  (exec_decodeCtrl_of_start s hstart).trans (congrArg Host.Outcome.next (issue_of_busy _ hbusy))

/-- Settles O13: every form with START set is an issue, and an issue while busy is dropped. -/
theorem commandWhileBusyIsDropped : Obligations.CommandWhileBusyIsDropped := by
  refine ⟨fun _ _ => exec_decodeCtrl_of_busy, fun s hbusy => ?_, fun s hbusy => ?_⟩
  · have dropped (op : Op) : issue op s = { s with ctrlOp := op, busyErr := true } := issue_of_busy op hbusy
    simp [dropped]
  · have hstart : (0x80000001#32)[31] = true := by decide
    exact ⟨_, (perform_write_ctrl _ s).trans (exec_decodeCtrl_of_busy hstart hbusy), hbusy, rfl, rfl⟩

/-! ### RESERVED3 while idle (40_command.md R103) -/

theorem decodeCtrl_of_and_commandMask_reserved3 {v : Word} (h : v &&& 0x80000003#32 = 0x80000003#32) :
    decodeCtrl v = .reserved3 := by
  rw [← decodeCtrl_and_commandMask, h]
  decide

theorem exec_reserved3_of_idle {s : State} (hidle : s.busy = false) :
    exec .reserved3 s = .next { s with ctrlOp := 0b11#2, ill := true } :=
  congrArg Host.Outcome.next (issue_reserved_of_idle hidle)

/-- The CTRL write of 40_command.md R103's example, in any idle state. -/
theorem perform_write_reserved3_of_idle {s : State} (hidle : s.busy = false) :
    perform (.access (.write 0x78#7 (bytesOfWord 0x80000003#32))) s =
      .next { s with response := some .ack, ctrlOp := 0b11#2, ill := true } := by
  rw [perform_write_ctrl, decodeCtrl_of_and_commandMask_reserved3 (by decide)]
  exact exec_reserved3_of_idle hidle

/-- Settles O14: the word decodes by its START and OP bits, and the example is the rule at the reset state. -/
theorem reserved3WhileIdleSetsIll : Obligations.Reserved3WhileIdleSetsIll :=
  ⟨fun _ => decodeCtrl_of_and_commandMask_reserved3, fun _ => exec_reserved3_of_idle,
    _, perform_write_reserved3_of_idle rfl, by decide, by decide⟩

end Sys2Proof.Machine
end

section
/-! The command in flight (40_command.md R104, R108): acceptance latches the operands, no host access disturbs the latch, and completion reads the latch alone. -/

namespace Sys2Proof.Machine

/-! ### Completion reads the latch alone (40_command.md R104, R105) -/

/-- Two commands in flight with one latch complete with one result (40_command.md R104, R106). -/
theorem unitTurn_r_eq_of_latch_eq {s t s' t' : State} (hs : unitTurn s = .next s') (ht : unitTurn t = .next t')
    (hsBusy : s.busy = true) (htBusy : t.busy = true) (hop : t.latOp = s.latOp) (hA : t.latA = s.latA)
    (hB : t.latB = s.latB) : t'.r = s'.r := by
  obtain ⟨res, hres, rfl⟩ := unitTurn_of_busy hs hsBusy
  obtain ⟨res', hres', rfl⟩ := unitTurn_of_busy ht htBusy
  rw [hop, hA, hB, hres] at hres'
  rw [Option.some.inj hres', writeResult_r, writeResult_r]

/-- A command in flight with an unreserved operation completes with the result of its latch (40_command.md R105). -/
theorem unitTurn_of_feExec {s : State} {res : LimbVec × Bool} (hbusy : s.busy = true)
    (hres : feExec s.latOp s.latA.sints s.latB.sints = some res) : unitTurn s = .next (writeResult res s) := by
  rw [unitTurn, if_pos hbusy, complete_of_feExec hres]

/-- Settles O16: an idle block accepts the three operations, and a later access keeps the latch that completion reads. -/
theorem acceptanceLatchesTheOperands : Obligations.AcceptanceLatchesTheOperands := by
  refine ⟨fun s hidle => ?_, fun x s t hbusy haccess => ?_⟩
  · have accepted (op : Op) (hop : op ≠ 0b11#2) :
        issue op s = { s with ctrlOp := op, latOp := op, latA := s.a, latB := s.b, busy := true, done := false } :=
      issue_of_idle hidle hop
    simp [accepted]
  · obtain ⟨htBusy, hop, hA, hB, _⟩ := hostAccess_keeps_command haccess hbusy
    exact ⟨htBusy, hop, hA, hB, fun _ _ hs ht => unitTurn_r_eq_of_latch_eq hs ht hbusy htBusy hop hA hB⟩

/-! ### Accesses between acceptance and completion (40_command.md R108) -/

/-- Any list of host accesses is performed, and leaves the command in flight as it is (40_command.md R108). -/
theorem performAll_accesses_keeps_command (xs : List Access) {s : State} (hbusy : s.busy = true) :
    ∃ t, performAll (xs.map .access) s = .next t ∧
      t.busy = true ∧ t.latOp = s.latOp ∧ t.latA = s.latA ∧ t.latB = s.latB := by
  induction xs generalizing s with
  | nil => exact ⟨s, performAll_nil s, hbusy, rfl, rfl, rfl⟩
  | cons x xs ih =>
    obtain ⟨u, haccess⟩ := hostAccess_next x s
    have hperform : perform (.access x) s = .next u := haccess
    obtain ⟨huBusy, hop, hA, hB, _⟩ := hostAccess_keeps_command haccess hbusy
    obtain ⟨t, hrest, htBusy, hop', hA', hB'⟩ := ih huBusy
    exact ⟨t, (performAll_cons _ hperform).trans hrest, htBusy, hop'.trans hop, hA'.trans hA, hB'.trans hB⟩

/-- Settles O55: the accesses keep the latch, by induction on their list, and completion writes the result of that latch. -/
theorem resultIsAFunctionOfTheLatch : Obligations.ResultIsAFunctionOfTheLatch := by
  intro s xs ⟨hunreserved, _⟩ hbusy
  obtain ⟨t, hrun, htBusy, hop, hA, hB⟩ := performAll_accesses_keeps_command xs hbusy
  obtain ⟨res, hres⟩ := feExec_ne_none s.latA.sints s.latB.sints hunreserved
  have hcomplete : unitTurn t = .next (writeResult res t) := unitTurn_of_feExec htBusy (by rw [hop, hA, hB, hres])
  exact ⟨t, _, res, hrun, hcomplete, hres, rfl, rfl, rfl, rfl⟩

end Sys2Proof.Machine
end

section
/-! Addition and subtraction (41_addsub.md R120 to R122): what a limb-wise function makes of its operands, said once for every exact operation it narrows, and the ADD command from its issue to its completion. -/

namespace Sys2Proof.Machine

/-! ### FE_ADD and FE_SUB limb by limb (41_addsub.md R120, R122) -/

section
variable (g : Int → Int → Int)

/-- A limb-wise function wraps each exact result by itself, and its ovf is 1 exactly when some exact result does not fit. -/
theorem limbwise_narrow_spec (a b : LimbVec) :
    (∀ i, (limbwise (fun x y => narrow (g x y)) a b).1.get i = (g (a.get i) (b.get i)).bmod (2 ^ 32)) ∧
    ((limbwise (fun x y => narrow (g x y)) a b).2 = true ↔
      ∃ i, g (a.get i) (b.get i) < -2147483648 ∨ 2147483647 < g (a.get i) (b.get i)) := by
  refine ⟨fun i => ?_, ?_⟩
  · rw [limbwise_get]
    exact (narrow_val_eq_bmod_and_ovf_iff _).1
  · rw [limbwise_ovf_iff]
    exact exists_congr fun i => (narrow_val_eq_bmod_and_ovf_iff _).2

/-- The registers take each limb's exact result mod 2^32 (40_command.md R105). -/
theorem limbwise_narrow_patterns (a b : LimbFile) :
    (limbwise (fun x y => narrow (g x y)) a.sints b.sints).1.patterns =
      Limbs.ofFn fun i => bits32 (g (sint (a.get i)) (sint (b.get i))) :=
  Limbs.ext_get fun i => by simp

/-- ovf of a limb-wise function on two register files, as one test on their limbs. -/
theorem limbwise_narrow_ovf (a b : LimbFile) :
    (limbwise (fun x y => narrow (g x y)) a.sints b.sints).2 =
      decide (∃ i, g (sint (a.get i)) (sint (b.get i)) < -2147483648 ∨
        2147483647 < g (sint (a.get i)) (sint (b.get i))) := by
  rw [Bool.eq_iff_iff, decide_eq_true_iff, (limbwise_narrow_spec g a.sints b.sints).2]
  simp only [Limbs.get_sints]

end

/-- Settles O24: FE_ADD is the limb-wise function of the exact sum. -/
theorem feAddIsLimbwise : Obligations.FeAddIsLimbwise := limbwise_narrow_spec (· + ·)

/-- Settles O25: FE_SUB is the limb-wise function of the exact difference. -/
theorem feSubIsLimbwise : Obligations.FeSubIsLimbwise := limbwise_narrow_spec (· - ·)

/-! ### A command from issue to completion (40_command.md R104, R105) -/

/-- A command that an idle block accepts completes, at the unit's next turn, with the result of its operands. -/
theorem unitTurn_issue_of_idle {s : State} {op : Op} {res : LimbVec × Bool} (hidle : s.busy = false)
    (hop : op ≠ 0b11#2) (hres : feExec op s.a.sints s.b.sints = some res) :
    unitTurn (issue op s) = .next (s.afterCommand op res.1.patterns res.2) := by
  rw [issue_of_idle hidle hop, unitTurn_of_feExec (accept_busy op (storeOp op s)) hres]
  rfl

/-! ### The ADD command (41_addsub.md R121) -/

theorem decodeCtrl_of_and_commandMask_add {v : Word} (h : v &&& 0x80000003#32 = 0x80000000#32) :
    decodeCtrl v = .add := by
  rw [← decodeCtrl_and_commandMask, h]
  decide

theorem feAdd_patterns (a b : LimbFile) :
    (feAdd a.sints b.sints).1.patterns = Limbs.ofFn fun i => bits32 (sint (a.get i) + sint (b.get i)) :=
  limbwise_narrow_patterns (· + ·) a b

theorem feAdd_ovf (a b : LimbFile) :
    (feAdd a.sints b.sints).2 =
      decide (∃ i, sint (a.get i) + sint (b.get i) < -2147483648 ∨ 2147483647 < sint (a.get i) + sint (b.get i)) :=
  limbwise_narrow_ovf (· + ·) a b

/-- An ADD issued while idle completes with the limb sums of A and B. -/
theorem unitTurn_issue_add_of_idle {s : State} (hidle : s.busy = false) :
    unitTurn (issue 0b00#2 s) =
      .next (s.afterCommand 0b00#2 (Limbs.ofFn fun i => bits32 (sint (s.a.get i) + sint (s.b.get i)))
        (decide (∃ i, sint (s.a.get i) + sint (s.b.get i) < -2147483648 ∨
          2147483647 < sint (s.a.get i) + sint (s.b.get i)))) := by
  rw [← feAdd_patterns, ← feAdd_ovf]
  exact unitTurn_issue_of_idle hidle (by decide) rfl

/-- A = B is allowed and doubles each limb. -/
theorem feAdd_self_patterns_get (a : LimbFile) (i : Fin 10) :
    (feAdd a.sints a.sints).1.patterns.get i = bits32 (2 * sint (a.get i)) := by
  rw [feAdd_patterns, Limbs.get_ofFn, two_mul]

/-- A = 0 copies B into R. -/
theorem feAdd_zero_patterns (b : LimbFile) : (feAdd Limbs.zero.sints b.sints).1.patterns = b := by
  have hzero : sint 0x00000000#32 = 0 := by decide
  refine Limbs.ext_get fun i => ?_
  rw [feAdd_patterns, Limbs.get_ofFn, Limbs.get_zero, hzero, zero_add, bits32_sint]

/-- Settles O18: an idle block accepts ADD and completes with the limb sums, a busy one drops it, and the corner cases are facts about FE_ADD.
The sum that leaves its limb's nominal width is 2^26 + 1 in limb 0. -/
theorem addCommand : Obligations.AddCommand := by
  refine ⟨fun _ => decodeCtrl_of_and_commandMask_add, rfl, fun s hidle => ?_,
    fun s hbusy => congrArg Host.Outcome.next (issue_of_busy _ hbusy), feAdd_self_patterns_get,
    feAdd_zero_patterns, ⟨Limbs.all 0x04000000#32, Limbs.one, 0, by decide⟩, by decide⟩
  have haccepted : issue 0b00#2 s = accept 0b00#2 (storeOp 0b00#2 s) := issue_of_idle hidle (by decide)
  refine ⟨issue 0b00#2 s, exec_add s, ?_, ?_, unitTurn_issue_add_of_idle hidle⟩
  · rw [haccepted, accept_busy]
  · rw [haccepted, accept_done]

end Sys2Proof.Machine
end

section
/-! The reducer on every vector (42_reduce.md R140 to R145): its steps beside steps that keep the exact result of every primitive. One relation holds at the start and every step keeps it, so it holds of FE_REDUCE and `tracedReduce`. -/

namespace Sys2Proof.Machine

/-! ### The steps of a reduction with the exact results that they meet -/

/-- The reduction w has the limbs of t, and its ovf is set exactly when some exact result met in t does not fit (42_reduce.md R145). -/
def TracedReduction.Describes (t : TracedReduction) (w : Work) : Prop :=
  w.x = t.limbs ∧ (w.ovf = true ↔ ∃ n ∈ t.met, DoesNotFit n)

/-- A link of the chain (42_reduce.md R142) on wrapped values; the results it meets are added to those before. -/
def TracedReduction.link (t : TracedReduction) (i : Fin 9) : TracedReduction :=
  let q := tracedCarry i.castSucc (t.limbs.get i.castSucc)
  let y := t.limbs.get i.succ + q.carry
  { limbs := (t.limbs.set i.castSucc q.limb).set i.succ (wrapped y)
    met := t.met ++ q.met ++ [y] }

/-- The step on limb 9 and its fold (42_reduce.md R141, R143) on wrapped values; the results it meets are added to those before. -/
def TracedReduction.fold (t : TracedReduction) : TracedReduction :=
  let q := tracedCarry 9 (t.limbs.get 9)
  let g := 19 * q.carry
  let z := t.limbs.get 0 + wrapped g
  { limbs := (t.limbs.set 9 q.limb).set 0 (wrapped z)
    met := t.met ++ q.met ++ [g, z] }

/-- `tracedReduce` is pass 1, the chain on limbs 0 to 8, and the step on limb 9 with its fold, in the order of 42_reduce.md R144. -/
theorem tracedReduce_eq_steps (a : LimbVec) :
    tracedReduce a =
      ([0, 1, 2, 3, 4, 5, 6, 7, 8].foldl TracedReduction.link (TracedReduction.fold ⟨a, []⟩)).fold := by
  simp [tracedReduce, TracedReduction.link, TracedReduction.fold, Limbs.get, Limbs.set]

/-! ### Every step of FE_REDUCE keeps to its trace -/

theorem exists_mem_append {α : Type} {p : α → Prop} {xs ys : List α} :
    (∃ n ∈ xs ++ ys, p n) ↔ (∃ n ∈ xs, p n) ∨ ∃ n ∈ ys, p n := by
  simp only [List.mem_append, or_and_right, exists_or]

namespace TracedReduction.Describes

theorem start (a : LimbVec) : Describes ⟨a, []⟩ ⟨a, false⟩ := by
  simp [Describes]

variable {t : TracedReduction} {w : Work}

theorem link (h : t.Describes w) (i : Fin 9) : (t.link i).Describes (chainStep w i) := by
  obtain ⟨hlimbs, hovf⟩ := h
  obtain ⟨hstepLimbs, hstepOvf⟩ := chainStep_traced w i
  rw [hlimbs] at hstepLimbs hstepOvf
  refine ⟨hstepLimbs, hstepOvf.trans ?_⟩
  simp only [hovf, TracedReduction.link, exists_mem_append, List.mem_singleton, exists_eq_left, or_assoc]

theorem chain (h : t.Describes w) (is : List (Fin 9)) :
    (is.foldl TracedReduction.link t).Describes (is.foldl chainStep w) := by
  induction is generalizing t w with
  | nil => exact h
  | cons i is ih => exact ih (h.link i)

theorem fold (h : t.Describes w) : t.fold.Describes (foldTop w) := by
  obtain ⟨hlimbs, hovf⟩ := h
  obtain ⟨hstepLimbs, hstepOvf⟩ := foldTop_traced w
  rw [hlimbs] at hstepLimbs hstepOvf
  refine ⟨hstepLimbs, hstepOvf.trans ?_⟩
  simp only [hovf, TracedReduction.fold, exists_mem_append, List.exists_mem_cons_iff,
    List.not_mem_nil, false_and, exists_false, or_false, or_assoc]

end TracedReduction.Describes

/-- Settles O60: the trace describes the reduction before pass 1, and pass 1, each link of the chain and the last fold keep it so. -/
theorem reduceRunsOnWrappedValues : Obligations.ReduceRunsOnWrappedValues := by
  intro a
  rw [tracedReduce_eq_steps]
  exact ((TracedReduction.Describes.start a).fold.chain [0, 1, 2, 3, 4, 5, 6, 7, 8]).fold

end Sys2Proof.Machine
end

section
/-! A reset that a host access overlaps (70_reset_and_hazards.md R191): the reset values of 10_state.md R41 speak of no response and no counter, so what the access leaves behind cannot break them. -/

namespace Sys2Proof.Machine

/-- The reset values say nothing of the bus response and the count of platform responses. -/
theorem State.AtReset.of_response_openCount {s : State} (h : s.AtReset) (q : Option Response) (n : Nat) :
    ({ s with response := q, openCount := n } : State).AtReset :=
  { h with }

/-- A reset that an access overlaps meets the reset values in any state, as the reset alone does. -/
theorem overlappedReset_atReset (x : Access) (s : State) : (overlappedReset x s).AtReset :=
  (resetBlock_atReset s).of_response_openCount _ _

/-- Settles O11: the overlapped reset gives the block its reset values, and its response is the platform's. -/
theorem accessOverlappingResetHasNoEffect : Obligations.AccessOverlappingResetHasNoEffect := fun s x =>
  ⟨_, _, perform_resetAccess x s, overlappedReset_atReset x s, overlappedReset_response x s⟩

end Sys2Proof.Machine
end

section
/-! Rules of the whole machine (10_state.md R21 to R36): one inversion lemma says what any event can do to the block; the invariant and the rule of every field are read off its cases. -/

namespace Sys2Proof.Machine

/-! ### What an event can do -/

/-- Everything an event e can make of the state s: one constructor for each rule under which the block moves. -/
inductive Transition (e : Event) (s : State) : State → Prop where
  /-- Reset, with or without an access that overlaps it (70_reset_and_hazards.md R190, R191). -/
  | reset {t : State} (isReset : e.isReset = true) (atReset : t.AtReset) : Transition e s t
  /-- The completion of the command in flight (40_command.md R105). -/
  | complete {res : LimbVec × Bool} (isUnit : e = .unit) (busy : s.busy = true)
      (result : feExec s.latOp s.latA.sints s.latB.sints = some res) : Transition e s (writeResult res s)
  /-- A turn of the unit that finds nothing to complete (log 2). -/
  | pass (isUnit : e = .unit) (idle : s.busy = false) : Transition e s s
  /-- A refused access, a read, or a write of R, which is ignored: the host gets a response and that is all (20_memory.md R55, R57, R58). -/
  | respond (q : Response) : Transition e s { s with response := some q }
  /-- A write of A[i] (10_state.md R21). -/
  | writeA {i : Fin 10} {v : Word} (writes : e.writes (.a i) v) :
      Transition e s { s with response := some .ack, a := s.a.set i v }
  /-- A write of B[i] (10_state.md R22). -/
  | writeB {i : Fin 10} {v : Word} (writes : e.writes (.b i) v) :
      Transition e s { s with response := some .ack, b := s.b.set i v }
  /-- A write of STATUS (10_state.md R35). -/
  | clearFlags {v : Word} (writes : e.writes .status v) :
      Transition e s (statusWrite v { s with response := some .ack })
  /-- SETOP (40_command.md R109). -/
  | setop {v : Word} (writes : e.writes .ctrl v) (start : v[31] = false) :
      Transition e s (storeOp (v.extractLsb' 0 2) { s with response := some .ack })
  /-- A command while busy (40_command.md R102). -/
  | drop {v : Word} (writes : e.writes .ctrl v) (start : v[31] = true) (busy : s.busy = true) :
      Transition e s (recordError .busyErr (storeOp (v.extractLsb' 0 2) { s with response := some .ack }))
  /-- RESERVED3 while idle (40_command.md R103). -/
  | reserved {v : Word} (writes : e.writes .ctrl v) (start : v[31] = true) (idle : s.busy = false)
      (op : v.extractLsb' 0 2 = 0b11#2) :
      Transition e s (recordError .ill (storeOp (v.extractLsb' 0 2) { s with response := some .ack }))
  /-- An accepted command (40_command.md R104). -/
  | accept {v : Word} (writes : e.writes .ctrl v) (start : v[31] = true) (idle : s.busy = false)
      (op : v.extractLsb' 0 2 ≠ 0b11#2) :
      Transition e s (accept (v.extractLsb' 0 2) (storeOp (v.extractLsb' 0 2) { s with response := some .ack }))

theorem hostAccess_transition {x : Access} {s t : State} (h : hostAccess x s = .next t) :
    Transition (.access x) s t := by
  rcases hostAccess_inv h with rfl | ⟨g, rfl⟩ | ⟨i, v, hw, rfl⟩ | ⟨i, v, hw, rfl⟩ | rfl | ⟨v, hw, rfl⟩ |
    ⟨v, hw, hstart, rfl⟩ | ⟨v, hw, hstart, hbusy, rfl⟩ | ⟨v, hw, hstart, hidle, hop, rfl⟩ |
    ⟨v, hw, hstart, hidle, hop, rfl⟩
  · exact .respond _
  · exact .respond _
  · exact .writeA hw
  · exact .writeB hw
  · exact .respond _
  · exact .clearFlags hw
  · exact .setop hw hstart
  · exact .drop hw hstart hbusy
  · exact .reserved hw hstart hidle hop
  · exact .accept hw hstart hidle hop

/-- Every event that answers a next state moves the block by one of the rules (20_memory.md R62; 40_command.md R100). -/
theorem perform_transition {e : Event} {s t : State} (h : perform e s = .next t) : Transition e s t := by
  cases e with
  | access x => exact hostAccess_transition h
  | unit =>
    rcases unitTurn_next h with ⟨hbusy, res, hres, rfl⟩ | ⟨hidle, rfl⟩
    · exact .complete rfl hbusy hres
    · exact .pass rfl hidle
  | reset =>
    cases h
    exact .reset rfl (resetBlock_atReset s)
  | resetAccess x =>
    cases h
    exact .reset rfl (overlappedReset_atReset x s)

/-! ### The invariant (10_state.md R30; 40_command.md R106) -/

theorem State.AtReset.inv {s : State} (h : s.AtReset) : s.Inv := by
  simp [State.Inv, h.latOp_zero, h.not_busy]

/-- The invariant does not speak of the schedule. -/
theorem State.Inv.of_pending {s : State} (h : s.Inv) (es : List Event) : ({ s with pending := es } : State).Inv := h

/-- Completion clears BUSY as it sets DONE, acceptance clears DONE as it sets BUSY and latches no reserved operation; every other rule leaves these three fields. -/
theorem Transition.keeps_inv {e : Event} {s t : State} (h : Transition e s t) (hs : s.Inv) : t.Inv := by
  obtain ⟨hlat, hflags⟩ := hs
  cases h with
  | reset _ hreset => exact hreset.inv
  | complete => exact ⟨hlat, by simp⟩
  | accept _ _ _ hop => exact ⟨hop, by simp⟩
  | _ => exact ⟨hlat, hflags⟩

theorem perform_keeps_inv {e : Event} {s t : State} (h : perform e s = .next t) (hs : s.Inv) : t.Inv :=
  (perform_transition h).keeps_inv hs

/-- Settles O52: a step performs an event, which keeps the invariant, or leaves the state as it is. -/
theorem stepKeepsTheInvariant : Obligations.StepKeepsTheInvariant := by
  intro s t hs hstep
  rcases step_cases s with ⟨e, _, hperform⟩ | ⟨_, hidle⟩
  · rw [hperform] at hstep
    exact perform_keeps_inv hstep (hs.of_pending _)
  · rw [hidle] at hstep
    cases hstep
    exact hs

/-- Settles O51: the reset values meet the invariant. -/
theorem resetMeetsTheInvariant : Obligations.ResetMeetsTheInvariant := resetValues.1.inv

/-! ### Every event is answered (60_exceptions.md R160) -/

/-- A turn of the unit is answered unless a reserved operation is in flight (40_command.md R106). -/
theorem unitTurn_isNext {s : State} (h : s.busy = true → s.latOp ≠ 0b11#2) : ∃ t, unitTurn s = .next t := by
  cases hb : s.busy with
  | false => exact ⟨s, by simp [unitTurn, hb]⟩
  | true =>
    obtain ⟨res, hres⟩ := feExec_ne_none s.latA.sints s.latB.sints (h hb)
    exact ⟨_, unitTurn_of_feExec hb hres⟩

/-- So is every other event, in any state (40_command.md R110). -/
theorem perform_isNext (e : Event) {s : State} (h : s.busy = true → s.latOp ≠ 0b11#2) :
    ∃ t, perform e s = .next t := by
  cases e with
  | access x => exact hostAccess_next x s
  | unit => exact unitTurn_isNext h
  | reset => exact ⟨_, perform_reset s⟩
  | resetAccess x => exact ⟨_, perform_resetAccess x s⟩

/-- Settles O53: the invariant rules the reserved operation out, and a step is an event or leaves the state. -/
theorem stepAlwaysAnswersNext : Obligations.StepAlwaysAnswersNext := by
  intro s ⟨hlat, _⟩
  refine ⟨fun e => perform_isNext e fun _ => hlat, ?_⟩
  rcases step_cases s with ⟨e, _, hperform⟩ | ⟨_, hidle⟩
  · rw [hperform]
    exact perform_isNext e fun _ => hlat
  · exact ⟨s, hidle⟩

/-! ### The sticky flags (10_state.md R31 to R33) -/

section
variable {e : Event} {s t : State}

theorem Transition.ovf_cleared (h : Transition e s t) (hs : s.ovf = true) (ht : t.ovf = false) :
    e.isReset = true ∨ ∃ v, e.writes .status v ∧ v[2] = true := by
  cases h with
  | reset hreset => exact .inl hreset
  | clearFlags hw => exact .inr ⟨_, hw, by simpa [hs] using ht⟩
  | _ => simp_all

theorem Transition.ill_cleared (h : Transition e s t) (hs : s.ill = true) (ht : t.ill = false) :
    e.isReset = true ∨ ∃ v, e.writes .status v ∧ v[3] = true := by
  cases h with
  | reset hreset => exact .inl hreset
  | clearFlags hw => exact .inr ⟨_, hw, by simpa [hs] using ht⟩
  | _ => simp_all

theorem Transition.busyErr_cleared (h : Transition e s t) (hs : s.busyErr = true) (ht : t.busyErr = false) :
    e.isReset = true ∨ ∃ v, e.writes .status v ∧ v[4] = true := by
  cases h with
  | reset hreset => exact .inl hreset
  | clearFlags hw => exact .inr ⟨_, hw, by simpa [hs] using ht⟩
  | _ => simp_all

theorem Transition.ovf_set (h : Transition e s t) (hs : s.ovf = false) (ht : t.ovf = true) :
    e = .unit ∧ s.busy = true ∧ ∃ x, feExec s.latOp s.latA.sints s.latB.sints = some (x, true) := by
  cases h with
  | reset _ hreset => simp [hreset.no_ovf] at ht
  | @complete res hunit hbusy hres =>
    have hovf : res.2 = true := by simpa [hs] using ht
    exact ⟨hunit, hbusy, res.1, by rw [hres, ← hovf]⟩
  | _ => simp_all

theorem Transition.ill_set (h : Transition e s t) (hs : s.ill = false) (ht : t.ill = true) :
    s.busy = false ∧ ∃ v, e.writes .ctrl v ∧ v[31] = true ∧ v.extractLsb' 0 2 = 0b11#2 := by
  cases h with
  | reset _ hreset => simp [hreset.no_ill] at ht
  | reserved hw hstart hidle hop => exact ⟨hidle, _, hw, hstart, hop⟩
  | _ => simp_all

theorem Transition.busyErr_set (h : Transition e s t) (hs : s.busyErr = false) (ht : t.busyErr = true) :
    s.busy = true ∧ ∃ v, e.writes .ctrl v ∧ v[31] = true := by
  cases h with
  | reset _ hreset => simp [hreset.no_busyErr] at ht
  | drop hw hstart hbusy => exact ⟨hbusy, _, hw, hstart⟩
  | _ => simp_all

/-! ### BUSY and DONE (10_state.md R29, R30) -/

theorem Transition.busy_set (h : Transition e s t) (hs : s.busy = false) (ht : t.busy = true) :
    t.done = false ∧ ∃ v, e.writes .ctrl v ∧ v[31] = true ∧ v.extractLsb' 0 2 ≠ 0b11#2 := by
  cases h with
  | reset _ hreset => simp [hreset.not_busy] at ht
  | accept hw hstart _ hop => exact ⟨rfl, _, hw, hstart, hop⟩
  | _ => simp_all

theorem Transition.busy_cleared (h : Transition e s t) (hs : s.busy = true) (ht : t.busy = false) :
    e.isReset = true ∨ e = .unit ∧ t.done = true := by
  cases h with
  | reset hreset => exact .inl hreset
  | complete hunit => exact .inr ⟨hunit, rfl⟩
  | _ => simp_all

theorem Transition.done_set (h : Transition e s t) (hs : s.done = false) (ht : t.done = true) :
    e = .unit ∧ s.busy = true := by
  cases h with
  | reset _ hreset => simp [hreset.not_done] at ht
  | complete hunit hbusy => exact ⟨hunit, hbusy⟩
  | _ => simp_all

theorem Transition.done_cleared (h : Transition e s t) (hs : s.done = true) (ht : t.done = false) :
    e.isReset = true ∨
      s.busy = false ∧ t.busy = true ∧ ∃ v, e.writes .ctrl v ∧ v[31] = true ∧ v.extractLsb' 0 2 ≠ 0b11#2 := by
  cases h with
  | reset hreset => exact .inl hreset
  | accept hw hstart hidle hop => exact .inr ⟨hidle, rfl, _, hw, hstart, hop⟩
  | _ => simp_all

/-! ### The register files and the latch (10_state.md R21 to R23, R36) -/

theorem Transition.a_changed {i : Fin 10} (h : Transition e s t) (hne : t.a.get i ≠ s.a.get i) :
    e.isReset = true ∨ e.writes (.a i) (t.a.get i) := by
  cases h with
  | reset hreset => exact .inl hreset
  | @writeA j v hw =>
    by_cases hij : i = j
    · subst hij
      exact .inr (by simpa using hw)
    · exact absurd (Limbs.get_set_of_ne s.a v hij) hne
  | _ => exact absurd rfl hne

theorem Transition.b_changed {i : Fin 10} (h : Transition e s t) (hne : t.b.get i ≠ s.b.get i) :
    e.isReset = true ∨ e.writes (.b i) (t.b.get i) := by
  cases h with
  | reset hreset => exact .inl hreset
  | @writeB j v hw =>
    by_cases hij : i = j
    · subst hij
      exact .inr (by simpa using hw)
    · exact absurd (Limbs.get_set_of_ne s.b v hij) hne
  | _ => exact absurd rfl hne

theorem Transition.r_changed (h : Transition e s t) (hne : t.r ≠ s.r) :
    e.isReset = true ∨
      e = .unit ∧ s.busy = true ∧
        ∃ res, feExec s.latOp s.latA.sints s.latB.sints = some res ∧ t.r = res.1.patterns := by
  cases h with
  | reset hreset => exact .inl hreset
  | complete hunit hbusy hres => exact .inr ⟨hunit, hbusy, _, hres, rfl⟩
  | _ => exact absurd rfl hne

theorem Transition.latch_changed (h : Transition e s t)
    (hne : ¬(t.latOp = s.latOp ∧ t.latA = s.latA ∧ t.latB = s.latB)) :
    e.isReset = true ∨
      s.busy = false ∧ t.busy = true ∧ t.latA = s.a ∧ t.latB = s.b ∧
        ∃ v, e.writes .ctrl v ∧ v[31] = true ∧ v.extractLsb' 0 2 ≠ 0b11#2 ∧ t.latOp = v.extractLsb' 0 2 := by
  cases h with
  | reset hreset => exact .inl hreset
  | accept hw hstart hidle hop => exact .inr ⟨hidle, rfl, rfl, rfl, _, hw, hstart, hop, rfl⟩
  | _ => exact absurd ⟨rfl, rfl, rfl⟩ hne

end

/-- Settles O45: each flag's causes and clears, read off the rules. -/
theorem stickyFlagsChangeOnlyAsStated : Obligations.StickyFlagsChangeOnlyAsStated := by
  intro e s t hperform
  have h := perform_transition hperform
  exact ⟨h.ovf_cleared, h.ill_cleared, h.busyErr_cleared, h.ovf_set, h.ill_set, h.busyErr_set⟩

/-- Settles O46: the same for BUSY and DONE. -/
theorem busyAndDoneChangeOnlyAsStated : Obligations.BusyAndDoneChangeOnlyAsStated := by
  intro e s t hperform
  have h := perform_transition hperform
  exact ⟨h.busy_set, h.busy_cleared, h.done_set, h.done_cleared⟩

/-- Settles O47: the rules that touch A and B are reset and the write of one limb. -/
theorem operandFilesChangeOnlyByHostWrites : Obligations.OperandFilesChangeOnlyByHostWrites := by
  intro e s t i hperform
  have h := perform_transition hperform
  exact ⟨h.a_changed, h.b_changed⟩

/-- Settles O48: the rules that touch R are reset and completion. -/
theorem resultChangesOnlyAtCompletion : Obligations.ResultChangesOnlyAtCompletion := fun _ _ _ hperform =>
  (perform_transition hperform).r_changed

/-- Settles O49: the rules that touch the latch are reset and acceptance. -/
theorem latchChangesOnlyAtAcceptance : Obligations.LatchChangesOnlyAtAcceptance := fun _ _ _ hperform =>
  (perform_transition hperform).latch_changed

/-! ### Reset and the command in flight (70_reset_and_hazards.md R190) -/

theorem unitTurn_of_idle {s : State} (hidle : s.busy = false) : unitTurn s = .next s := by
  simp [unitTurn, hidle]

/-- Settles O10: after reset the block is idle, so the unit's turn passes; and of the rules that clear BUSY only completion is no reset. -/
theorem resetAbandonsTheCommandInFlight : Obligations.ResetAbandonsTheCommandInFlight := by
  refine ⟨fun s => ⟨_, perform_reset s, resetBlock_atReset s, unitTurn_of_idle (resetBlock_busy s)⟩,
    fun e s t hperform hbusy hidle hreset => ?_⟩
  cases perform_transition hperform with
  | reset h => simp [h] at hreset
  | complete hunit _ hres => exact ⟨hunit, rfl, _, hres, rfl⟩
  | _ => simp_all

end Sys2Proof.Machine
end

section
/-! Encoding and the schedule (30_encoding.md R80 to R87; log 2, log 8, log 9): the encoder keeps the decoded bits, four bytes are a command, and a step performs the event that its schedule names. -/

namespace Sys2Proof.Machine

/-! ### Words (30_encoding.md R81, R85) -/

theorem and_startMask (v : Word) : v &&& 0x80000000#32 = if v[31] = true then 0x80000000#32 else 0x00000000#32 :=
  BitVec.and_twoPow v 31

/-- The bits that decoding looks at are START and OP. -/
theorem and_commandMask (v : Word) :
    v &&& 0x80000003#32 =
      (if v[31] = true then 0x80000000#32 else 0x00000000#32) ||| ctrlPattern (v.extractLsb' 0 2) := by
  have hmask : 0x80000003#32 = 0x80000000#32 ||| 0x00000003#32 := by decide
  rw [hmask, BitVec.and_or_distrib_left, and_startMask, ctrlPattern_op]

/-- Settles O4: on each line of DecodeCtrl the form keeps START and OP, and these are all that the mask leaves. -/
theorem decodeThenEncodeKeepsTheDecodedBits : Obligations.DecodeThenEncodeKeepsTheDecodedBits := by
  intro v
  rw [and_commandMask]
  rcases decodeCtrl_cases v with ⟨hstart, hform⟩ | ⟨hstart, hop, hform⟩ | ⟨hstart, hop, hform⟩ |
    ⟨hstart, hop, hform⟩ | ⟨hstart, hop, hform⟩
  · simp [hstart, hform, encode, ctrlPattern]
  all_goals
    rw [hstart, hop, hform]
    decide

theorem decodeCtrl_encode (i : Instr) : decodeCtrl (encode i) = i := by
  cases i with
  | setop op =>
    revert op
    decide
  | add => decide
  | sub => decide
  | reduce => decide
  | reserved3 => decide

/-! ### Bytes (20_memory.md R56; 30_encoding.md R87) -/

@[simp] theorem decodeBytes_bytesOfWord (v : Word) : decodeBytes (bytesOfWord v) = .ok (decodeCtrl v) := by
  simp [decodeBytes]

/-- Bytes that decode are the lanes of a word that decodes. -/
theorem decodeBytes_eq_ok {bytes : List Byte} {i : Instr} (h : decodeBytes bytes = .ok i) :
    ∃ v, bytes = bytesOfWord v ∧ decodeCtrl v = i := by
  cases hword : wordOfBytes bytes with
  | none => simp [decodeBytes, hword] at h
  | some v =>
    have hv := bytesOfWord_of_wordOfBytes hword
    subst hv
    exact ⟨v, rfl, by simpa using h⟩

/-- Settles O3: the decoder inverts the encoder on words, and bytes decode as their word. -/
theorem encodeThenDecode : Obligations.EncodeThenDecode := fun i _ =>
  ⟨decodeCtrl_encode i, by rw [decodeBytes_bytesOfWord, decodeCtrl_encode]⟩

/-- Settles O5: bytes make a word exactly where they are four. -/
theorem onlyFourBytesAreACommand : Obligations.OnlyFourBytesAreACommand := by
  refine fun bytes => ⟨fun hfour => ?_, fun hsize => ?_⟩
  · cases hword : wordOfBytes bytes with
    | none => exact absurd hfour ((wordOfBytes_eq_none_iff bytes).mp hword)
    | some v => exact ⟨decodeCtrl v, by simp [decodeBytes, hword]⟩
  · simp [decodeBytes, (wordOfBytes_eq_none_iff bytes).mpr hsize]

/-- Settles O1: the bytes of each sample, evaluated. -/
theorem sampleWordsDecode : Obligations.SampleWordsDecode := by
  unfold Obligations.SampleWordsDecode
  decide

/-! ### Steps (20_memory.md R62; log 2, log 3, log 8) -/

/-- Settles O6: one rule for each state of the schedule. -/
theorem stepTakesTheNextEvent : Obligations.StepTakesTheNextEvent := fun _ =>
  ⟨fun _ _ => step_of_pending, step_of_busy, step_of_idle⟩

/-- Settles O7: the bytes are the lanes of a word, and a write of a word to CTRL runs its form. -/
theorem stepRunsTheDecodedCommand : Obligations.StepRunsTheDecodedCommand := by
  intro s bytes rest i hpending hdecode _
  obtain ⟨v, rfl, rfl⟩ := decodeBytes_eq_ok hdecode
  rw [step_of_pending hpending, perform_write_ctrl]

/-- A word placed as 32 bits is the CTRL write of it, before the rest of the schedule. -/
theorem withFetchWord_pending (s : State) (w : Word) :
    (s.withFetchWord 32 w.toNat).pending = .access (.write 0x78#7 (bytesOfWord w)) :: s.pending := by
  rw [State.withFetchWord, Nat.mod_eq_of_lt w.isLt, BitVec.ofNat_toNat, BitVec.setWidth_eq]
  rfl

/-- Settles O8: the placed event is the CTRL write of the form's word, which decodes to the form. -/
theorem stepRunsAnEncodedCommand : Obligations.StepRunsAnEncodedCommand := by
  intro s i _
  rw [step_of_pending (withFetchWord_pending s (encode i)), perform_write_ctrl, decodeCtrl_encode]
  rfl

end Sys2Proof.Machine
end

section
/-! The register interface (20_memory.md R50 to R61; 60_exceptions.md R161): the map, the window, byte lanes, accesses made twice, and the STATUS bit of each error. -/

namespace Sys2Proof.Machine

/-! ### The register map and the window (20_memory.md R50 to R52) -/

/-- No two registers share an offset: the offset says which register it is. -/
theorem Reg.off_injective {g g' : Reg} (h : g.off = g'.off) : g = g' := by
  rw [← ofOffset_off g, h, ofOffset_off]

/-- Settles O40: every offset of the map is some register's offset, and an aligned offset is that of its register. -/
theorem everyWordOffsetIsARegister : Obligations.EveryWordOffsetIsARegister := by
  refine ⟨fun i => ⟨?_, ofOffset_off (.b i), ofOffset_off (.r i)⟩, ofOffset_off .ctrl, ofOffset_off .status,
    fun off haligned => off_ofOffset off ((aligned_iff off).mpr haligned), fun _ _ => Reg.off_injective⟩
  rw [off_a]
  exact ofOffset_off (.a i)

/-- FE_BASE is a multiple of the window's size (20_memory.md R50). -/
theorem feBase_mod_window : Config.feBase % 0x80 = 0 := Nat.mul_mod_right 0x80 Config.feWindow

theorem windowOffset_eq_some_iff (addr : Nat) (off : Offset) :
    windowOffset addr = some off ↔ addr = Config.feBase + off.toNat := by
  have hoff := off.isLt
  rw [windowOffset, Option.ite_none_right_eq_some, Option.some.injEq, ← BitVec.toNat_inj, BitVec.toNat_ofNat]
  omega

theorem windowOffset_eq_none_iff (addr : Nat) :
    windowOffset addr = none ↔ addr < Config.feBase ∨ Config.feBase + 0x7F < addr := by
  simp only [windowOffset, ite_eq_right_iff, reduceCtorEq, imp_false]
  omega

/-- Settles O41: FE_BASE is a multiple of 0x80, so the distance from it is the address mod 0x80. -/
theorem windowOffsets : Obligations.WindowOffsets := by
  refine ⟨feBase_mod_window, windowOffset_eq_some_iff, windowOffset_eq_none_iff, fun addr off h => ?_⟩
  have haddr := (windowOffset_eq_some_iff addr off).mp h
  have hbase := feBase_mod_window
  have hoff := off.isLt
  omega

/-! ### Byte lanes (20_memory.md R56) -/

section
variable (b0 b1 b2 b3 : Byte)

/-- The lanes of four bytes that were put together are those bytes. -/
theorem bytesOfWord_wordOfLanes : bytesOfWord (wordOfLanes b0 b1 b2 b3) = [b0, b1, b2, b3] :=
  bytesOfWord_of_wordOfBytes rfl

theorem wordOfLanes_bits :
    (wordOfLanes b0 b1 b2 b3).extractLsb' 0 8 = b0 ∧ (wordOfLanes b0 b1 b2 b3).extractLsb' 8 8 = b1 ∧
    (wordOfLanes b0 b1 b2 b3).extractLsb' 16 8 = b2 ∧ (wordOfLanes b0 b1 b2 b3).extractLsb' 24 8 = b3 := by
  simpa [bytesOfWord, lane] using bytesOfWord_wordOfLanes b0 b1 b2 b3

/-- A write of four bytes is the write of the word whose lanes they are. -/
theorem hostAccess_write_lanes (g : Reg) (s : State) :
    hostAccess (.write g.off [b0, b1, b2, b3]) s =
      busWrite g.off (wordOfLanes b0 b1 b2 b3) { s with response := some .ack } := by
  rw [← bytesOfWord_wordOfLanes, hostAccess_write]

/-- Four bytes written to a register that then holds their word: its bits are the bytes, and so are the lanes of a read. -/
theorem lanes_of_written_register {g : Reg} {s t : State}
    (hwrite : busWrite g.off (wordOfLanes b0 b1 b2 b3) { s with response := some .ack } = .next t)
    (hreg : readReg g t = wordOfLanes b0 b1 b2 b3) : ∃ t u v,
    perform (.access (.write g.off [b0, b1, b2, b3])) s = .next t ∧
      (readReg g t).extractLsb' 0 8 = b0 ∧ (readReg g t).extractLsb' 8 8 = b1 ∧
      (readReg g t).extractLsb' 16 8 = b2 ∧ (readReg g t).extractLsb' 24 8 = b3 ∧
    perform (.access (.read g.off 4)) t = .next u ∧ u.response = some (.data v) ∧
      bytesOfWord v = [b0, b1, b2, b3] := by
  obtain ⟨h0, h1, h2, h3⟩ := wordOfLanes_bits b0 b1 b2 b3
  rw [← hreg] at h0 h1 h2 h3
  exact ⟨t, _, _, (hostAccess_write_lanes b0 b1 b2 b3 g s).trans hwrite, h0, h1, h2, h3,
    hostAccess_read g t, rfl, by rw [hreg, bytesOfWord_wordOfLanes]⟩

end

/-- Settles O39: a limb of A or B holds the word that was written to it. -/
theorem byteLanesAreLittleEndian : Obligations.ByteLanesAreLittleEndian := by
  refine ⟨fun s i b0 b1 b2 b3 => ?_, fun s i b0 b1 b2 b3 => ?_, fun v => rfl⟩
  · rw [off_a]
    exact lanes_of_written_register b0 b1 b2 b3 (g := .a i) (busWrite_a i _ _) (Limbs.get_set_self _ i _)
  · exact lanes_of_written_register b0 b1 b2 b3 (g := .b i) (busWrite_b i _ _) (Limbs.get_set_self _ i _)

/-! ### Accesses made twice (20_memory.md R61) -/

/-- Whatever the state, an access is refused, reads a register, or writes one (20_memory.md R53 to R55). -/
theorem access_cases (x : Access) :
    (∀ s, hostAccess x s = refuseAccess x.off s) ∨ (∃ g : Reg, x = .read g.off 4) ∨
      ∃ (g : Reg) (v : Word), x = .write g.off (bytesOfWord v) := by
  cases x with
  | read off n =>
    by_cases h : n = 4 ∧ off.extractLsb' 0 2 = 0b00#2
    · obtain ⟨rfl, haligned⟩ := h
      exact .inr (.inl ⟨Reg.ofOffset off, by rw [off_ofOffset off ((aligned_iff off).mpr haligned)]⟩)
    · exact .inl fun s => hostAccess_read_refused s (not_and_or.mp h)
  | write off bytes =>
    by_cases h : bytes.length = 4 ∧ off.extractLsb' 0 2 = 0b00#2
    · obtain ⟨hsize, haligned⟩ := h
      cases hword : wordOfBytes bytes with
      | none => exact absurd hsize ((wordOfBytes_eq_none_iff bytes).mp hword)
      | some v =>
        rw [← bytesOfWord_of_wordOfBytes hword, ← off_ofOffset off ((aligned_iff off).mpr haligned)]
        exact .inr (.inr ⟨_, v, rfl⟩)
    · exact .inl fun s => hostAccess_write_refused s (not_and_or.mp h)

/-- What a register reads as does not depend on the response to an earlier access. -/
theorem readReg_of_response (g : Reg) (s : State) (q : Option Response) :
    readReg g { s with response := q } = readReg g s := by
  cases g <;> rfl

/-- A write that starts no command leaves nothing for a second one to do. -/
theorem hostAccess_write_twice {g : Reg} {v : Word} {s t : State} (hcommand : g = .ctrl → v[31] = false)
    (h : hostAccess (.write g.off (bytesOfWord v)) s = .next t) :
    hostAccess (.write g.off (bytesOfWord v)) t = .next t := by
  rw [hostAccess_write] at h ⊢
  cases g with
  | a i =>
    rw [busWrite_a] at h ⊢
    cases h
    simp
  | b i =>
    rw [busWrite_b] at h ⊢
    cases h
    simp
  | r i =>
    rw [busWrite_r] at h ⊢
    cases h
    rfl
  | status =>
    rw [busWrite_status] at h ⊢
    cases h
    simp [statusWrite]
  | ctrl =>
    have hsetop : ∀ u, busWrite (Reg.off .ctrl) v u = .next (storeOp (v.extractLsb' 0 2) u) := fun u => by
      simp [busWrite, decodeCtrl_of_start_clear (hcommand rfl)]
    rw [hsetop] at h ⊢
    cases h
    rfl

/-- Settles O43: refusing, reading and writing again do nothing more; a second command write meets the first in flight. -/
theorem idempotentAccesses : Obligations.IdempotentAccesses := by
  refine ⟨fun x s t hx h => ?_, fun v s hidle hstart hop => ?_⟩
  · rcases access_cases x with hrefused | ⟨g, rfl⟩ | ⟨g, v, rfl⟩
    · rw [perform_access, hrefused] at h ⊢
      cases h
      rfl
    · rw [perform_access, hostAccess_read] at h ⊢
      cases h
      simp [readReg_of_response]
    · refine hostAccess_write_twice (fun hg => ?_) h
      subst hg
      exact Bool.eq_false_iff.mpr fun hstart => hx v hstart rfl
  · have haccepted := issue_of_idle (s := { s with response := some .ack }) hidle hop
    have hfirst := (perform_write_ctrl v s).trans (exec_decodeCtrl_of_start _ hstart)
    rw [haccepted] at hfirst
    exact ⟨_, _, hfirst, (perform_write_ctrl v _).trans (exec_decodeCtrl_of_busy hstart rfl), rfl⟩

/-! ### Errors and their STATUS bits (60_exceptions.md R161) -/

/-- Recording an error sets the bit of STATUS that is its code, and no other. -/
theorem readReg_status_recordError (c : ErrorCause) (s : State) :
    readReg .status (recordError c s) = readReg .status s ||| BitVec.twoPow 32 c.code := by
  have hbits : ∀ busyErr ill ovf done busy : Bool,
      statusPattern busyErr ill true done busy = statusPattern busyErr ill ovf done busy ||| BitVec.twoPow 32 2 ∧
      statusPattern busyErr true ovf done busy = statusPattern busyErr ill ovf done busy ||| BitVec.twoPow 32 3 ∧
      statusPattern true ill ovf done busy = statusPattern busyErr ill ovf done busy ||| BitVec.twoPow 32 4 := by
    decide
  obtain ⟨hovf, hill, hbusyErr⟩ := hbits s.busyErr s.ill s.ovf s.done s.busy
  cases c with
  | ovf => exact hovf
  | ill => exact hill
  | busyErr => exact hbusyErr

/-- After an error is recorded, the bit of STATUS that is its code reads 1. -/
theorem status_bit_recordError (c : ErrorCause) (s : State) :
    (readReg .status (recordError c s)).getLsbD c.code = true := by
  rw [readReg_status_recordError, BitVec.getLsbD_or, BitVec.getLsbD_twoPow]
  cases c <;> simp [ErrorCause.code]

/-- Recording an error changes no register file, no OP and no latch. -/
theorem recordError_frame (c : ErrorCause) (s : State) :
    (recordError c s).a = s.a ∧ (recordError c s).b = s.b ∧ (recordError c s).r = s.r ∧
    (recordError c s).ctrlOp = s.ctrlOp ∧ (recordError c s).latOp = s.latOp ∧
    (recordError c s).latA = s.latA ∧ (recordError c s).latB = s.latB := by
  cases c <;> simp

/-- A completion that overflowed is a recorded OVF beside the written result. -/
theorem writeResult_of_overflow (x : LimbVec) (s : State) :
    writeResult (x, true) s = { recordError .ovf s with r := x.patterns, busy := false, done := true } := by
  simp [writeResult, recordError]

/-- Settles O44: each of the three errors is recorded where its rule says, and a recorded error reads 1 at its code. -/
theorem errorCodesAreStatusBits : Obligations.ErrorCodesAreStatusBits := by
  refine ⟨⟨rfl, rfl, rfl⟩, fun c s => ⟨readReg_status_recordError c s, recordError_frame c s⟩,
    fun s x hbusy hres => ?_, fun s v hidle hstart hop => ?_, fun s v hbusy hstart => ?_⟩
  · refine ⟨_, unitTurn_of_feExec hbusy hres, writeResult_of_overflow x s, ?_⟩
    rw [writeResult_of_overflow]
    exact status_bit_recordError .ovf { s with r := x.patterns, busy := false, done := true }
  · refine ⟨_, ?_, rfl, status_bit_recordError .ill _⟩
    rw [perform_write_ctrl, exec_decodeCtrl_of_start _ hstart, hop]
    exact congrArg Host.Outcome.next (issue_reserved_of_idle hidle)
  · refine ⟨_, ?_, rfl, status_bit_recordError .busyErr _⟩
    rw [perform_write_ctrl, exec_decodeCtrl_of_start _ hstart]
    exact congrArg Host.Outcome.next (issue_of_busy _ hbusy)

end Sys2Proof.Machine
end

section
/-! Completion and the hidden latch (40_command.md R105 to R107; 10_state.md R36): what completion writes, that it comes within the schedule, and that the latch of an idle block is never seen. -/

namespace Sys2Proof.Machine

/-! ### Completion of each operation (40_command.md R105, R106) -/

/-- Settles O17: the latched operation is one of the three that R106 names, and an idle block's turn passes. -/
theorem completionWritesTheResult : Obligations.CompletionWritesTheResult := by
  intro s
  refine ⟨fun hbusy hop => ?_, fun hbusy hop => ?_, fun hbusy hop => ?_, unitTurn_of_idle⟩
  all_goals
    refine unitTurn_of_feExec hbusy ?_
    rw [hop]
    rfl

/-! ### OVF of one command (10_state.md R31, R35) -/

/-- A command that an idle block with OVF clear accepts leaves its own overflow bit in OVF. -/
theorem exec_completes_with_own_ovf {s : State} {i : Instr} {op : Op} {res : LimbVec × Bool}
    (hexec : exec i s = .next (issue op s)) (hidle : s.busy = false) (hovf : s.ovf = false) (hop : op ≠ 0b11#2)
    (hres : feExec op s.a.sints s.b.sints = some res) :
    ∃ u w, exec i s = .next u ∧ perform .unit u = .next w ∧ w.ovf = res.2 :=
  ⟨_, _, hexec, unitTurn_issue_of_idle hidle hop hres, by simp [State.afterCommand, hovf]⟩

/-- Settles O21: the write of STATUS clears OVF and leaves the operands, whichever operation follows. -/
theorem ovfOfOneCommand : Obligations.OvfOfOneCommand := by
  intro s v hidle hclear
  have hovf : (statusWrite v { s with response := some .ack }).ovf = false := by simp [hclear]
  exact ⟨_, (hostAccess_write .status v s).trans (busWrite_status v _),
    exec_completes_with_own_ovf (exec_add _) hidle hovf (by decide) rfl,
    exec_completes_with_own_ovf (exec_sub _) hidle hovf (by decide) rfl,
    exec_completes_with_own_ovf (exec_reduce _) hidle hovf (by decide) rfl⟩

/-! ### Completion within the schedule (40_command.md R107, log 2) -/

/-- At most n steps from s, the command in flight has completed with the result of its latch. -/
def State.CompletesWithin (n : Nat) (s : State) : Prop :=
  ∃ k t res, k ≤ n ∧ Host.Core.run core k s = .next t ∧ feExec s.latOp s.latA.sints s.latB.sints = some res ∧
    t.r = res.1.patterns ∧ t.busy = false ∧ t.done = true

theorem run_succ {s t : State} (k : Nat) (h : step s = .next t) :
    Host.Core.run core (k + 1) s = Host.Core.run core k t := by
  simp [Host.Core.run, h]

/-- A step that gives the unit its turn completes the command, whatever is left of the schedule. -/
theorem State.CompletesWithin.of_unitTurn {s : State} {es : List Event} (n : Nat)
    (hstep : step s = unitTurn { s with pending := es }) (hbusy : s.busy = true) (hop : s.latOp ≠ 0b11#2) :
    s.CompletesWithin (n + 1) := by
  obtain ⟨res, hres⟩ := feExec_ne_none s.latA.sints s.latB.sints hop
  have hturn := unitTurn_of_feExec (s := { s with pending := es }) hbusy hres
  exact ⟨1, _, res, Nat.le_add_left 1 n, run_succ 0 (hstep.trans hturn), hres, rfl, rfl, rfl⟩

/-- A step that keeps the latch puts completion off by one step. -/
theorem State.CompletesWithin.of_step {n : Nat} {s t : State} (hstep : step s = .next t) (hop : t.latOp = s.latOp)
    (hA : t.latA = s.latA) (hB : t.latB = s.latB) (h : t.CompletesWithin n) : s.CompletesWithin (n + 1) := by
  obtain ⟨k, u, res, hk, hrun, hres, hresult⟩ := h
  rw [hop, hA, hB] at hres
  exact ⟨k + 1, u, res, Nat.succ_le_succ hk, (run_succ k hstep).trans hrun, hres, hresult⟩

/-- By induction on the schedule: a turn of the unit completes the command, an access keeps it, and past the end the unit has its turn. -/
theorem completesWithin_of_pending (es : List Event) {s : State} (hpending : s.pending = es) (hbusy : s.busy = true)
    (hop : s.latOp ≠ 0b11#2) (hreset : ∀ e ∈ es, e.isReset = false) : s.CompletesWithin (es.length + 1) := by
  induction es generalizing s with
  | nil => exact .of_unitTurn (es := s.pending) 0 (step_of_busy hpending hbusy) hbusy hop
  | cons e es ih =>
    obtain ⟨hhead, htail⟩ := List.forall_mem_cons.mp hreset
    have hstep := step_of_pending hpending
    cases e with
    | access x =>
      obtain ⟨t, haccess⟩ := hostAccess_next x { s with pending := es }
      obtain ⟨htBusy, htOp, htA, htB, _⟩ := hostAccess_keeps_command haccess hbusy
      have htPending := (hostAccess_keeps_schedule haccess).1
      exact .of_step (hstep.trans haccess) htOp htA htB (ih htPending htBusy (htOp ▸ hop) htail)
    | unit => exact .of_unitTurn _ hstep hbusy hop
    | reset => cases hhead
    | resetAccess x => cases hhead

/-- Settles O54: the invariant rules the reserved operation out, so the command completes within the schedule. -/
theorem commandInFlightCompletes : Obligations.CommandInFlightCompletes := fun _ hs hbusy hreset =>
  completesWithin_of_pending _ rfl hbusy hs.1 hreset

/-! ### The latch of an idle block (10_state.md R36) -/

/-- The state with another latch. -/
def State.withLatch (s : State) (op : Op) (a b : LimbFile) : State := { s with latOp := op, latA := a, latB := b }

/-- States that are equal when the latch is set aside differ by a latch. -/
theorem State.eq_withLatch_of_eraseLatch_eq {s s' : State} (h : s.eraseLatch = s'.eraseLatch) :
    s' = s.withLatch s'.latOp s'.latA s'.latB := by
  cases s
  cases s'
  simp_all [State.eraseLatch, State.withLatch]

/-- No register reads the latch (20_memory.md R57). -/
theorem readReg_withLatch (g : Reg) (s : State) (op : Op) (a b : LimbFile) :
    readReg g (s.withLatch op a b) = readReg g s := by
  cases g <;> rfl

/-- Two states that agree but for the latch; while a command is in flight they agree entirely, and its operation is not reserved. -/
def State.Alike (s s' : State) : Prop :=
  s.eraseLatch = s'.eraseLatch ∧ (s.busy = true → s = s' ∧ s.latOp ≠ 0b11#2)

theorem State.alike_of_idle {s s' : State} (hidle : s.busy = false) (h : s.eraseLatch = s'.eraseLatch) :
    s.Alike s' :=
  ⟨h, fun hbusy => by simp [hidle] at hbusy⟩

/-- Both outcomes are next states that are alike. -/
def NextAlike (o o' : Host.Outcome State Fault Refusal) : Prop :=
  ∃ t t', o = .next t ∧ o' = .next t' ∧ t.Alike t'

section
variable {s : State} (hidle : s.busy = false) (op : Op) (a b : LimbFile)
include hidle

/-- A command issued while idle does not read the latch; an accepted one overwrites it (40_command.md R104). -/
theorem issue_alike (cmd : Op) : (issue cmd s).Alike (issue cmd (s.withLatch op a b)) := by
  by_cases hcmd : cmd = 0b11#2
  · rw [hcmd, issue_reserved_of_idle hidle, issue_reserved_of_idle (s := s.withLatch op a b) hidle]
    exact State.alike_of_idle hidle rfl
  · rw [issue_of_idle hidle hcmd, issue_of_idle (s := s.withLatch op a b) hidle hcmd]
    exact ⟨rfl, fun _ => ⟨rfl, hcmd⟩⟩

theorem busWrite_alike (g : Reg) (v : Word) :
    NextAlike (busWrite g.off v s) (busWrite g.off v (s.withLatch op a b)) := by
  cases g with
  | a i => exact ⟨_, _, busWrite_a i v _, busWrite_a i v _, State.alike_of_idle hidle rfl⟩
  | b i => exact ⟨_, _, busWrite_b i v _, busWrite_b i v _, State.alike_of_idle hidle rfl⟩
  | r i => exact ⟨_, _, busWrite_r i v _, busWrite_r i v _, State.alike_of_idle hidle rfl⟩
  | status => exact ⟨_, _, busWrite_status v _, busWrite_status v _, State.alike_of_idle hidle rfl⟩
  | ctrl =>
    refine ⟨_, _, exec_decodeCtrl v _, exec_decodeCtrl v _, ?_⟩
    split
    · exact issue_alike hidle op a b _
    · exact State.alike_of_idle hidle rfl

theorem hostAccess_alike (x : Access) : NextAlike (hostAccess x s) (hostAccess x (s.withLatch op a b)) := by
  rcases access_cases x with hrefused | ⟨g, rfl⟩ | ⟨g, v, rfl⟩
  · exact ⟨_, _, hrefused s, hrefused _, State.alike_of_idle hidle rfl⟩
  · refine ⟨_, _, hostAccess_read g s, hostAccess_read g _, ?_⟩
    rw [readReg_withLatch]
    exact State.alike_of_idle hidle rfl
  · rw [hostAccess_write, hostAccess_write]
    exact busWrite_alike (s := { s with response := some .ack }) hidle op a b g v

theorem perform_alike_of_idle (e : Event) : NextAlike (perform e s) (perform e (s.withLatch op a b)) := by
  cases e with
  | access x => exact hostAccess_alike hidle op a b x
  | unit =>
    exact ⟨_, _, unitTurn_of_idle hidle, unitTurn_of_idle (s := s.withLatch op a b) hidle,
      State.alike_of_idle hidle rfl⟩
  | reset => exact ⟨_, _, rfl, rfl, State.alike_of_idle rfl rfl⟩
  | resetAccess x => exact ⟨_, _, rfl, rfl, State.alike_of_idle rfl rfl⟩

end

/-- The operation in flight is never the reserved one, whatever an idle block's latch holds (40_command.md R106). -/
theorem Transition.keeps_unreserved {e : Event} {s t : State} (h : Transition e s t)
    (hs : s.busy = true → s.latOp ≠ 0b11#2) (ht : t.busy = true) : t.latOp ≠ 0b11#2 := by
  cases h with
  | reset _ hreset => simp [hreset.not_busy] at ht
  | complete => cases ht
  | accept _ _ _ hop => exact hop
  | _ => exact hs ht

/-- Every event is answered alike in states that are alike. -/
theorem State.Alike.perform {s s' : State} (h : s.Alike s') (e : Event) :
    NextAlike (Machine.perform e s) (Machine.perform e s') := by
  obtain ⟨herase, hflight⟩ := h
  cases hb : s.busy with
  | false =>
    rw [State.eq_withLatch_of_eraseLatch_eq herase]
    exact perform_alike_of_idle hb _ _ _ e
  | true =>
    obtain ⟨rfl, hop⟩ := hflight hb
    obtain ⟨t, ht⟩ := perform_isNext e fun _ => hop
    exact ⟨t, t, ht, ht, rfl, fun htBusy => ⟨rfl, (perform_transition ht).keeps_unreserved (fun _ => hop) htBusy⟩⟩

theorem State.Alike.performAll (es : List Event) {s s' : State} (h : s.Alike s') :
    NextAlike (Machine.performAll es s) (Machine.performAll es s') := by
  induction es generalizing s s' with
  | nil => exact ⟨s, s', rfl, rfl, h⟩
  | cons e es ih =>
    obtain ⟨t, t', ht, ht', halike⟩ := h.perform e
    rw [performAll_cons es ht, performAll_cons es ht']
    exact ih halike

/-- Settles O50: idle states that differ in the latch are alike, and every event keeps states alike. -/
theorem idleLatchIsInvisible : Obligations.IdleLatchIsInvisible := by
  intro es s s' hidle _ herase
  obtain ⟨t, t', ht, ht', halike, _⟩ := (State.alike_of_idle hidle herase).performAll es
  exact ⟨t, t', ht, ht', halike⟩

end Sys2Proof.Machine
end

section
/-! Addition and subtraction (00_scope.md R7 to R9; 41_addsub.md R123 to R125): the value of a limb vector as one sum, the value law and the no-overflow bounds of ADD and SUB, and the SUB command. -/

namespace Sys2Proof.Machine

/-! ### Weights and values (00_scope.md R7 to R9) -/

/-- Settles O22: each width is 26 or 25 with its half threshold, and the weights are evaluated. -/
theorem limbWidthsAndWeights : Obligations.LimbWidthsAndWeights :=
  ⟨fun i => ⟨rfl, half_eq_pow i, rfl⟩, by decide, by decide⟩

theorem value_eq_sum (x : LimbVec) : x.value = ∑ i : Fin 10, x.get i * 2 ^ weight i := by
  simp only [Fin.sum_univ_castSucc, Fin.sum_univ_zero, zero_add]
  rfl

/-! ### The value law (41_addsub.md R124) -/

section
variable (g : Int → Int → Int) {a b : LimbVec}

/-- Where no limb overflows, every limb is the exact result. -/
theorem limbwise_narrow_exact (h : (limbwise (fun x y => narrow (g x y)) a b).2 = false) (i : Fin 10) :
    (limbwise (fun x y => narrow (g x y)) a b).1.get i = g (a.get i) (b.get i) := by
  rw [limbwise_get]
  exact narrow_val_of_ovf_false ((limbwise_noOvf_iff _ a b).mp h i)

theorem limbwise_narrow_noOvf_iff :
    (limbwise (fun x y => narrow (g x y)) a b).2 = false ↔
      ∀ i, -2147483648 ≤ g (a.get i) (b.get i) ∧ g (a.get i) (b.get i) ≤ 2147483647 :=
  (limbwise_noOvf_iff _ a b).trans (forall_congr' fun _ => outOfRange_eq_false_iff)

/-- Exact results within a bound that fits: nothing overflows, and the limbs keep to the bound. -/
theorem limbwise_narrow_within {k : Int} (hk : k ≤ 2147483647)
    (h : ∀ i, -k ≤ g (a.get i) (b.get i) ∧ g (a.get i) (b.get i) ≤ k) :
    (limbwise (fun x y => narrow (g x y)) a b).2 = false ∧
      (limbwise (fun x y => narrow (g x y)) a b).1.Within k := by
  have hovf := (limbwise_narrow_noOvf_iff g (a := a) (b := b)).mpr fun i => by
    have := h i
    omega
  refine ⟨hovf, fun i => ?_⟩
  rw [limbwise_narrow_exact g hovf]
  exact h i

end

section
variable {a b : LimbVec}

theorem feAdd_exact (h : (feAdd a b).2 = false) (i : Fin 10) : (feAdd a b).1.get i = a.get i + b.get i :=
  limbwise_narrow_exact (· + ·) h i

theorem feSub_exact (h : (feSub a b).2 = false) (i : Fin 10) : (feSub a b).1.get i = a.get i - b.get i :=
  limbwise_narrow_exact (· - ·) h i

theorem feAdd_noOvf_iff :
    (feAdd a b).2 = false ↔ ∀ i, -2147483648 ≤ a.get i + b.get i ∧ a.get i + b.get i ≤ 2147483647 :=
  limbwise_narrow_noOvf_iff (· + ·)

theorem feSub_noOvf_iff :
    (feSub a b).2 = false ↔ ∀ i, -2147483648 ≤ a.get i - b.get i ∧ a.get i - b.get i ≤ 2147483647 :=
  limbwise_narrow_noOvf_iff (· - ·)

end

/-- Settles O26: every limb is exact, and the value is linear in the limbs. -/
theorem addSubValueLaw : Obligations.AddSubValueLaw := by
  refine fun a b => ⟨fun h => ?_, fun h => ?_⟩
  · simp only [value_eq_sum, feAdd_exact h, add_mul, Finset.sum_add_distrib]
  · simp only [value_eq_sum, feSub_exact h, sub_mul, Finset.sum_sub_distrib]

/-! ### Bounds under which nothing overflows (41_addsub.md R125) -/

/-- One ADD or SUB step of a chain (41_addsub.md R125). -/
def addOrSub (plus : Bool) (x y : LimbVec) : LimbVec × Bool := if plus then feAdd x y else feSub x y

/-- Two bounds that add up to no more than 2^31 − 1: neither ADD nor SUB overflows, and the result keeps to their sum. -/
theorem addOrSub_within (plus : Bool) {x y : LimbVec} {m n : Int} (hx : x.Within m) (hy : y.Within n)
    (hfits : m + n ≤ 2147483647) :
    (addOrSub plus x y).2 = false ∧ (addOrSub plus x y).1.Within (m + n) := by
  have hsum : ∀ i, -(m + n) ≤ x.get i + y.get i ∧ x.get i + y.get i ≤ m + n := fun i => by
    have := hx i
    have := hy i
    omega
  have hdiff : ∀ i, -(m + n) ≤ x.get i - y.get i ∧ x.get i - y.get i ≤ m + n := fun i => by
    have := hx i
    have := hy i
    omega
  cases plus with
  | true => exact limbwise_narrow_within (· + ·) hfits hsum
  | false => exact limbwise_narrow_within (· - ·) hfits hdiff

/-- Settles O27: sums and differences of the bounds fit. -/
theorem addSubNoOverflowBound : Obligations.AddSubNoOverflowBound := by
  refine ⟨fun a b ha hb => ⟨feAdd_noOvf_iff.mpr fun i => ?_, feSub_noOvf_iff.mpr fun i => ?_⟩,
    fun a b ha hb => (addOrSub_within true ha hb (by decide)).1⟩
  all_goals
    have := ha i
    have := hb i
    omega

/-- The chain rule for any bound m on the start and n on the operands: each step adds n to the bound. -/
theorem addSubChain_within {m n : Int} (steps : List (Bool × LimbVec)) {x : LimbVec} (hx : x.Within m)
    (hsteps : ∀ q ∈ steps, q.2.Within n) (hn : 0 ≤ n) (hfits : m + steps.length * n ≤ 2147483647) :
    (addSubChain x steps).2 = false ∧ (addSubChain x steps).1.Within (m + steps.length * n) := by
  induction steps generalizing x m with
  | nil => simpa [addSubChain] using hx
  | cons q steps ih =>
    obtain ⟨plus, y⟩ := q
    obtain ⟨hy, hrest⟩ := List.forall_mem_cons.mp hsteps
    have hlen : m + ((plus, y) :: steps).length * n = m + n + steps.length * n := by
      rw [List.length_cons]
      push_cast
      ring
    have htail : 0 ≤ steps.length * n := by positivity
    rw [hlen] at hfits ⊢
    obtain ⟨hovf, hwithin⟩ := addOrSub_within plus hx hy (by omega)
    obtain ⟨hchain, hbound⟩ := ih hwithin hrest hfits
    exact ⟨Bool.or_eq_false_iff.mpr ⟨hovf, hchain⟩, hbound⟩

/-! ### The SUB command (41_addsub.md R122, R123) -/

theorem decodeCtrl_of_and_commandMask_sub {v : Word} (h : v &&& 0x80000003#32 = 0x80000001#32) :
    decodeCtrl v = .sub := by
  rw [← decodeCtrl_and_commandMask, h]
  decide

theorem feSub_patterns (a b : LimbFile) :
    (feSub a.sints b.sints).1.patterns = Limbs.ofFn fun i => bits32 (sint (a.get i) - sint (b.get i)) :=
  limbwise_narrow_patterns (· - ·) a b

theorem feSub_ovf (a b : LimbFile) :
    (feSub a.sints b.sints).2 =
      decide (∃ i, sint (a.get i) - sint (b.get i) < -2147483648 ∨ 2147483647 < sint (a.get i) - sint (b.get i)) :=
  limbwise_narrow_ovf (· - ·) a b

/-- A − A is 0 in every limb and never overflows. -/
theorem feSub_self (a : LimbVec) : feSub a a = (Limbs.zero.sints, false) := by
  have hovf : (feSub a a).2 = false := feSub_noOvf_iff.mpr fun i => by omega
  refine Prod.ext (Limbs.ext_get fun i => ?_) hovf
  rw [feSub_exact hovf, sub_self, Limbs.get_sints, Limbs.get_zero]
  decide

/-- A = 0 negates B. -/
theorem feSub_zero_patterns_get (b : LimbFile) (i : Fin 10) :
    (feSub Limbs.zero.sints b.sints).1.patterns.get i = bits32 (-sint (b.get i)) := by
  have hzero : sint 0x00000000#32 = 0 := by decide
  rw [feSub_patterns, Limbs.get_ofFn, Limbs.get_zero, hzero, zero_sub]

/-- A limb whose exact difference d does not fit: it wraps and ovf is set. -/
theorem feSub_wraps {a b : LimbVec} {i : Fin 10} {d : Int} (hd : a.get i - b.get i = d) (hfit : DoesNotFit d) :
    (feSub a b).1.get i = d.bmod (2 ^ 32) ∧ (feSub a b).2 = true := by
  obtain ⟨hval, hovf⟩ := feSubIsLimbwise a b
  exact ⟨by rw [hval, hd], hovf.mpr ⟨i, hd ▸ hfit⟩⟩

/-- An accepted command is in flight, with DONE clear (40_command.md R104). -/
theorem issue_of_idle_flags {s : State} {op : Op} (hidle : s.busy = false) (hop : op ≠ 0b11#2) :
    (issue op s).busy = true ∧ (issue op s).done = false := by
  rw [issue_of_idle hidle hop]
  exact ⟨rfl, rfl⟩

/-- Settles O19: an idle block accepts SUB and completes with the limb differences, a busy one drops it, and the corner cases are facts about FE_SUB. -/
theorem subCommand : Obligations.SubCommand := by
  refine ⟨fun _ => decodeCtrl_of_and_commandMask_sub, rfl, fun s hidle => ?_,
    fun s hbusy => congrArg Host.Outcome.next (issue_of_busy _ hbusy), fun a => feSub_self a.sints,
    feSub_zero_patterns_get, fun a b i ha hb => ?_, fun a b i ha hb => ?_, by decide⟩
  · obtain ⟨hbusy, hdone⟩ := issue_of_idle_flags (op := 0b01#2) hidle (by decide)
    rw [← feSub_patterns, ← feSub_ovf]
    exact ⟨_, exec_sub s, hbusy, hdone, unitTurn_issue_of_idle hidle (by decide) rfl⟩
  · exact feSub_wraps (show a.get i - b.get i = -2147483649 by omega) (.inl (by decide))
  · exact feSub_wraps (show a.get i - b.get i = 2147483648 by omega) (.inr (by decide))

end Sys2Proof.Machine
end

section
/-! The carry step on every limb (42_reduce.md R140, R149): the floor of the wrapped sum, the wrapped difference, and the three tests; where the sum fits, rounding to nearest. -/

namespace Sys2Proof.Machine

/-! ### The carry of a limb, wrapping or not (42_reduce.md R140) -/

theorem tracedCarry_carry_eq_asr (i : Fin 10) (x : Int) :
    (tracedCarry i x).carry = asr (wrapped (x + half i)) (width i) := rfl

theorem exactCarry_eq_asr (i : Fin 10) (x : Int) : exactCarry i x = asr (x + half i) (width i) := rfl

theorem wrapped_range (n : Int) : -2147483648 ≤ wrapped n ∧ wrapped n ≤ 2147483647 :=
  wrap32_eq_wrapped n ▸ wrap32_range n

theorem wrapped_of_fits {n : Int} (h : ¬DoesNotFit n) : wrapped n = n := by
  simp only [DoesNotFit, not_or, not_lt] at h
  rw [← wrap32_eq_wrapped, wrap32_of_inRange h.1 h.2]

/-- The carry of a 32-bit limb, and its product with the threshold or with 19, fit in 32 bits (42_reduce.md R149). -/
theorem tracedCarry_products_fit (i : Fin 10) (x : Int) :
    ¬DoesNotFit ((tracedCarry i x).carry * 2 ^ width i) ∧ ¬DoesNotFit (19 * (tracedCarry i x).carry) := by
  have hrange := wrapped_range (x + half i)
  have hfloor := asr_floor (wrapped (x + half i)) (width i)
  rw [← tracedCarry_carry_eq_asr] at hfloor
  unfold DoesNotFit
  rcases half_cases i with ⟨hw, -⟩ | ⟨hw, -⟩ <;> rw [hw] at hfloor ⊢ <;> omega

/-- Where the sum with the half threshold fits, the carry is the exact one. -/
theorem tracedCarry_carry_of_fits {i : Fin 10} {x : Int} (h : ¬DoesNotFit (x + half i)) :
    (tracedCarry i x).carry = exactCarry i x := by
  rw [tracedCarry_carry_eq_asr, wrapped_of_fits h, exactCarry_eq_asr]

/-- Where the sum fits, so does the difference that the limb keeps (42_reduce.md R149). -/
theorem tracedCarry_difference_fits {i : Fin 10} {x : Int} (h : ¬DoesNotFit (x + half i)) :
    ¬DoesNotFit (x - wrapped ((tracedCarry i x).carry * 2 ^ width i)) := by
  rw [wrapped_of_fits (tracedCarry_products_fit i x).1, tracedCarry_carry_of_fits h]
  have hrem := exactCarry_remainder i x
  push_cast at hrem
  unfold DoesNotFit
  rcases half_cases i with ⟨-, hh⟩ | ⟨-, hh⟩ <;> rw [hh] at hrem <;> omega

/-! ### The carry step -/

section
variable (w : Work) (i : Fin 10)

theorem carryStep_carry : (carryStep w i).2 = (tracedCarry i (w.x.get i)).carry := (carryStep_traced w i).2.1

theorem carryStep_get_of_ne {j : Fin 10} (hj : j ≠ i) : (carryStep w i).1.x.get j = w.x.get j := by
  rw [(carryStep_traced w i).1, Limbs.get_set_of_ne _ _ hj]

theorem carryStep_get_self :
    (carryStep w i).1.x.get i = wrapped (w.x.get i - wrapped ((carryStep w i).2 * 2 ^ width i)) := by
  rw [(carryStep_traced w i).1, Limbs.get_set_self, carryStep_carry]
  simp [tracedCarry]

/-- ovf is ORed with the tests of the sum, of the product and of the difference. -/
theorem carryStep_ovf_iff :
    (carryStep w i).1.ovf = true ↔ w.ovf = true ∨ DoesNotFit (w.x.get i + half i) ∨
      DoesNotFit ((carryStep w i).2 * 2 ^ width i) ∨
      DoesNotFit (w.x.get i - wrapped ((carryStep w i).2 * 2 ^ width i)) := by
  rw [(carryStep_traced w i).2.2, carryStep_carry]
  simp [tracedCarry]

/-- Where the sum fits, the carry step is exact and leaves the remainder of rounding to nearest (42_reduce.md R140). -/
theorem carryStep_rounds (h1 : -2147483648 ≤ w.x.get i) (h2 : w.x.get i + half i ≤ 2147483647) :
    (carryStep w i).2 * 2 ^ width i ≤ w.x.get i + half i ∧
    w.x.get i + half i < ((carryStep w i).2 + 1) * 2 ^ width i ∧
    (carryStep w i).1.x.get i = w.x.get i - (carryStep w i).2 * 2 ^ width i ∧
    -half i ≤ (carryStep w i).1.x.get i ∧ (carryStep w i).1.x.get i ≤ half i - 1 ∧
    (carryStep w i).1.ovf = w.ovf := by
  have hfloor := asr_floor (w.x.get i + half i) (width i)
  obtain ⟨hlow, hhigh⟩ := exactCarry_remainder i (w.x.get i)
  rw [carryStep_exact w i h1 h2, Limbs.get_set_self]
  refine ⟨hfloor.1, hfloor.2, ?_, hlow, Int.le_sub_one_of_lt hhigh, rfl⟩
  push_cast
  rfl

end

/-- Settles O29: each clause is a fact about the carry step's carry, its limb or its tests. -/
theorem carryStepRoundsToNearest : Obligations.CarryStepRoundsToNearest := by
  intro w i
  have hcarry := carryStep_carry w i
  refine ⟨fun j => carryStep_get_of_ne w i, ?_, carryStep_get_self w i, carryStep_ovf_iff w i,
    carryStep_rounds w i, ?_⟩
  · rw [hcarry]
    exact asr_floor _ _
  · rw [hcarry]
    obtain ⟨hproduct, hnineteen⟩ := tracedCarry_products_fit i (w.x.get i)
    exact ⟨hproduct, hnineteen, tracedCarry_difference_fits⟩

end Sys2Proof.Machine
end

section
/-! The reducer without overflow (42_reduce.md R144, R147 to R151): its steps on unbounded integers, what they keep of the value and the bounds, and that within the bound of R149 nothing overflows. -/

namespace Sys2Proof.Machine

/-! ### The steps on unbounded integers (42_reduce.md R141 to R144) -/

/-- A link of the chain with no wrapping (42_reduce.md R142). -/
def exactLink (x : LimbVec) (i : Fin 9) : LimbVec :=
  let c := exactCarry i.castSucc (x.get i.castSucc)
  (x.set i.castSucc (x.get i.castSucc - c * (2 ^ width i.castSucc : Nat))).set i.succ (x.get i.succ + c)

theorem exactLink_get (x : LimbVec) (i : Fin 9) (j : Fin 10) :
    (exactLink x i).get j =
      if j = i.succ then x.get i.succ + exactCarry i.castSucc (x.get i.castSucc)
      else if j = i.castSucc then
        x.get i.castSucc - exactCarry i.castSucc (x.get i.castSucc) * (2 ^ width i.castSucc : Nat)
      else x.get j := by
  rw [exactLink, Limbs.get_set, Limbs.get_set]

/-- The step on limb 9 and its fold with no wrapping (42_reduce.md R141, R143). -/
def exactFold (x : LimbVec) : LimbVec :=
  { x with
    x0 := x.x0 + 19 * exactCarry 9 x.x9
    x9 := x.x9 - 33554432 * exactCarry 9 x.x9 }

theorem exactFold_eq_set (x : LimbVec) :
    exactFold x = (x.set 9 (x.x9 - 33554432 * exactCarry 9 x.x9)).set 0 (x.x0 + 19 * exactCarry 9 x.x9) := rfl

theorem exactFold_get (x : LimbVec) (j : Fin 10) :
    (exactFold x).get j =
      if j = 0 then x.x0 + 19 * exactCarry 9 x.x9
      else if j = 9 then x.x9 - 33554432 * exactCarry 9 x.x9 else x.get j := by
  rw [exactFold_eq_set, Limbs.get_set, Limbs.get_set]

/-- The vector that the second step on limb 9 starts from: the fold, then the links of limbs 0 to 8 (42_reduce.md R144). -/
def exactChain (a : LimbVec) : LimbVec := [0, 1, 2, 3, 4, 5, 6, 7, 8].foldl exactLink (exactFold a)

/-- `exactReduce` is the chain and the fold of limb 9's carry c_9. -/
theorem exactReduce_eq_steps (a : LimbVec) :
    (exactReduce a).limbs = exactFold (exactChain a) ∧
    (exactReduce a).carries.x9 = exactCarry 9 (exactChain a).x9 := by
  simp [exactReduce, exactChain, exactLink, exactFold, Limbs.get, Limbs.set, width, mul_comm]

/-! ### A reduction without overflow takes these steps -/

/-- A wrapped value keeps a vector in range. -/
theorem inRange_set_wrap32 {x : LimbVec} (h : x.InRange) (i : Fin 10) (n : Int) : (x.set i (wrap32 n)).InRange := by
  intro j
  rw [Limbs.get_set]
  split
  · exact wrap32_range n
  · exact h j

theorem carryStep_inRange {w : Work} (h : w.x.InRange) (i : Fin 10) : (carryStep w i).1.x.InRange :=
  inRange_set_wrap32 h i _

theorem addCarry_inRange {w : Work} (h : w.x.InRange) (i : Fin 10) (c : Int) : (addCarry w i c).x.InRange :=
  inRange_set_wrap32 h i _

theorem chainStep_inRange {w : Work} (h : w.x.InRange) (i : Fin 9) : (chainStep w i).x.InRange :=
  addCarry_inRange (carryStep_inRange h i.castSucc) i.succ _

theorem foldTop_inRange {w : Work} (h : w.x.InRange) : (foldTop w).x.InRange :=
  addCarry_inRange (w := ⟨(carryStep w 9).1.x, _⟩) (carryStep_inRange h 9) 0 _

/-- Links after which no overflow is noted are the exact links, and the vector stays in range. -/
theorem chain_noOvf (is : List (Fin 9)) {w : Work} (hw : w.x.InRange) (h : (is.foldl chainStep w).ovf = false) :
    w.ovf = false ∧ (is.foldl chainStep w).x = is.foldl exactLink w.x ∧ (is.foldl chainStep w).x.InRange := by
  induction is generalizing w with
  | nil => exact ⟨h, rfl, hw⟩
  | cons i is ih =>
    obtain ⟨hlink, hlimbs, hrange⟩ := ih (chainStep_inRange hw i) h
    obtain ⟨hovf, -, -, hexact⟩ := chainStep_noOvf (hw i.castSucc).1 hlink
    refine ⟨hovf, hlimbs.trans ?_, hrange⟩
    rw [hexact]
    rfl

/-- Settles O30: FE_REDUCE's three parts, each free of overflow and so exact. -/
theorem reduceComputesTheExactCarryChain : Obligations.ReduceComputesTheExactCarryChain := by
  intro a ha h
  obtain ⟨hpass1, hchain⟩ := feReduce_noOvf_inv a h
  obtain ⟨-, -, -, -, hfirst⟩ := foldTop_noOvf (w := ⟨a, false⟩) (ha 9).1 hpass1
  obtain ⟨-, hlinks, hrange⟩ := chain_noOvf _ (foldTop_inRange (w := ⟨a, false⟩) ha) hchain
  obtain ⟨-, -, -, -, hlast⟩ := foldTop_noOvf (w := pass2Chain (pass1 ⟨a, false⟩)) (hrange 9).1 h
  have hchainLimbs : (pass2Chain (pass1 ⟨a, false⟩)).x = exactChain a := by
    refine hlinks.trans ?_
    rw [hfirst]
    rfl
  rw [(exactReduce_eq_steps a).1, ← hchainLimbs]
  exact congrArg Work.x hlast

/-! ### The value (42_reduce.md R147) -/

theorem value_set (x : LimbVec) (i : Fin 10) (v : Int) :
    (x.set i v).value = x.value + (v - x.get i) * 2 ^ weight i := by
  fin_cases i <;> simp only [Limbs.value, Limbs.set, Limbs.get] <;> ring

/-- A link moves the carry c·2^(s_i) of limb i to c in limb i + 1: the value stays. -/
theorem exactLink_value (x : LimbVec) (i : Fin 9) : (exactLink x i).value = x.value := by
  have hne : i.succ ≠ i.castSucc := by simp [Fin.ext_iff]
  have hweight : weight i.succ = weight i.castSucc + width i.castSucc := rfl
  rw [exactLink, value_set, value_set, Limbs.get_set_of_ne _ _ hne, hweight, pow_add]
  push_cast
  ring

theorem exactLinks_value (is : List (Fin 9)) (x : LimbVec) : (is.foldl exactLink x).value = x.value := by
  induction is generalizing x with
  | nil => rfl
  | cons i is ih => rw [List.foldl_cons, ih, exactLink_value]

/-- The fold takes c·2^255 from limb 9 and puts 19·c into limb 0: the value loses c·p. -/
theorem exactFold_value (x : LimbVec) : (exactFold x).value = x.value - exactCarry 9 x.x9 * prime := by
  have h9 : weight (9 : Fin 10) = 230 := rfl
  have h0 : weight (0 : Fin 10) = 0 := rfl
  rw [exactFold_eq_set, value_set, value_set, Limbs.get_set_of_ne _ _ (by decide), h9, h0, prime]
  simp only [Limbs.get]
  ring

/-- Settles O31: only the two folds change the value, by c_f·p and by c_9·p. -/
theorem reduceValueLaw : Obligations.ReduceValueLaw := by
  intro a ha h
  obtain ⟨hlimbs, hc9⟩ := exactReduce_eq_steps a
  have hchain : (exactChain a).value = a.value - (exactReduce a).foldCarry * prime :=
    (exactLinks_value _ _).trans (exactFold_value a)
  rw [reduceComputesTheExactCarryChain a ha h, hlimbs, exactFold_value, ← hc9, hchain]
  ring


end Sys2Proof.Machine
end

section
/-! Bounds of the reducer (42_reduce.md R148 to R151): within the bound of R149 no primitive overflows and the carries are small, so the output is bounded; and settled vectors are fixed points. -/

namespace Sys2Proof.Machine

theorem within_mono {x : LimbVec} {m n : Int} (h : x.Within m) (hmn : m ≤ n) : x.Within n := by
  intro i
  have := h i
  omega

theorem half_of_even {i : Fin 10} (h : i.val % 2 = 0) : half i = 33554432 := if_pos h

theorem half_of_odd {i : Fin 10} (h : i.val % 2 = 1) : half i = 16777216 := if_neg (by omega)

/-! ### No overflow (42_reduce.md R149) -/

/-- A limb within 2113928018 + 19·63: its carry step does not overflow, and its carry is at most 63. -/
theorem exactCarry_le_63 (i : Fin 10) {x : Int} (h1 : -2113929215 ≤ x) (h2 : x ≤ 2113929215) :
    x + half i ≤ 2147483647 ∧ -63 ≤ exactCarry i x ∧ exactCarry i x ≤ 63 := by
  rcases half_cases i with ⟨hw, hh⟩ | ⟨hw, hh⟩ <;> norm_num [exactCarry, hw, hh] <;> omega

/-- What is left of any limb after its carry is small. -/
theorem exactCarry_remainder_within (i : Fin 10) (x : Int) :
    -33554432 ≤ x - exactCarry i x * (2 ^ width i : Nat) ∧
      x - exactCarry i x * (2 ^ width i : Nat) ≤ 33554431 := by
  have hrem := exactCarry_remainder i x
  rcases half_cases i with ⟨-, hh⟩ | ⟨-, hh⟩ <;> omega

/-- A link from a limb of that size to one within 2113928018 does not overflow. -/
theorem chainStep_exact {w : Work} {i : Fin 9}
    (hlimb : -2113929215 ≤ w.x.get i.castSucc ∧ w.x.get i.castSucc ≤ 2113929215)
    (hnext : -2113928018 ≤ w.x.get i.succ ∧ w.x.get i.succ ≤ 2113928018) :
    chainStep w i = ⟨exactLink w.x i, w.ovf⟩ := by
  obtain ⟨hsum, hcarry⟩ := exactCarry_le_63 i.castSucc hlimb.1 hlimb.2
  have hne : i.succ ≠ i.castSucc := by simp [Fin.ext_iff]
  rw [chainStep, carryStep_exact w i.castSucc (by omega) hsum, addCarry_exact]
  · rw [Limbs.get_set_of_ne _ _ hne]
    rfl
  all_goals
    rw [Limbs.get_set_of_ne _ _ hne]
    omega

/-- The step on limb 9 and its fold do not overflow. -/
theorem foldTop_exact {w : Work} (h0 : -2113929215 ≤ w.x.x0 ∧ w.x.x0 ≤ 2113929215)
    (h9 : -2113929215 ≤ w.x.x9 ∧ w.x.x9 ≤ 2113929215) : foldTop w = ⟨exactFold w.x, w.ovf⟩ := by
  obtain ⟨hsum, hcarry⟩ := exactCarry_le_63 9 h9.1 h9.2
  have hm : mulw 19 (exactCarry 9 w.x.x9) = ⟨19 * exactCarry 9 w.x.x9, false⟩ :=
    narrow_of_inRange (by omega) (by omega)
  have hproduct : exactCarry 9 w.x.x9 * (2 ^ width 9 : Nat) = 33554432 * exactCarry 9 w.x.x9 := mul_comm _ _
  have hstep : carryStep w 9 =
      (⟨w.x.set 9 (w.x.x9 - 33554432 * exactCarry 9 w.x.x9), w.ovf⟩, exactCarry 9 w.x.x9) := by
    rw [← hproduct]
    exact carryStep_exact w 9 (show -2147483648 ≤ w.x.x9 by omega) hsum
  rw [foldTop, hstep]
  simp only [hm, Bool.or_false]
  exact addCarry_exact _ 0 _ (show -2147483648 ≤ w.x.x0 + 19 * exactCarry 9 w.x.x9 by omega)
    (show w.x.x0 + 19 * exactCarry 9 w.x.x9 ≤ 2147483647 by omega)

/-- Before the link of limb k: no overflow so far, every limb within 2113928018 + 19·63, the limbs above k still within 2113928018. -/
def Work.ReadyAt (k : Nat) (w : Work) : Prop :=
  w.ovf = false ∧ w.x.Within 2113929215 ∧
    ∀ j : Fin 10, k < j.val → -2113928018 ≤ w.x.get j ∧ w.x.get j ≤ 2113928018

/-- A link does not overflow and hands the next limb a small carry. -/
theorem Work.ReadyAt.link {w : Work} (i : Fin 9) (h : w.ReadyAt i.val) : (chainStep w i).ReadyAt (i.val + 1) := by
  obtain ⟨hovf, hwithin, habove⟩ := h
  obtain ⟨hlow, hhigh⟩ := hwithin i.castSucc
  have hnext := habove i.succ (by simp)
  have hcarry := (exactCarry_le_63 i.castSucc hlow hhigh).2
  have hrem := exactCarry_remainder_within i.castSucc (w.x.get i.castSucc)
  rw [chainStep_exact ⟨hlow, hhigh⟩ hnext]
  refine ⟨hovf, fun j => ?_, fun j hj => ?_⟩
  · rw [exactLink_get]
    have := hwithin j
    split_ifs <;> omega
  · have hsucc : j ≠ i.succ := fun h => by simp [h] at hj
    have hcast : j ≠ i.castSucc := fun h => by
      rw [h, Fin.val_castSucc] at hj
      omega
    rw [exactLink_get, if_neg hsucc, if_neg hcast]
    exact habove j (by omega)

/-- Pass 1 leaves a vector within 2113928018 ready for the chain. -/
theorem pass1_readyAt {a : LimbVec} (ha : a.Within 2113928018) : (pass1 ⟨a, false⟩).ReadyAt 0 := by
  have h0 : -2113928018 ≤ a.x0 ∧ a.x0 ≤ 2113928018 := ha 0
  have h9 : -2113928018 ≤ a.x9 ∧ a.x9 ≤ 2113928018 := ha 9
  have hcarry := (exactCarry_le_63 9 (show -2113929215 ≤ a.x9 by omega) (by omega)).2
  have hrem : -33554432 ≤ a.x9 - exactCarry 9 a.x9 * 33554432 ∧ a.x9 - exactCarry 9 a.x9 * 33554432 ≤ 33554431 :=
    exactCarry_remainder_within 9 a.x9
  have hpass : pass1 ⟨a, false⟩ = ⟨exactFold a, false⟩ := foldTop_exact (by simp only; omega) (by simp only; omega)
  rw [hpass]
  refine ⟨rfl, fun j => ?_, fun j hj => ?_⟩
  · rw [exactFold_get]
    have := ha j
    split_ifs <;> omega
  · rw [exactFold_get, if_neg (fun h => by simp [h] at hj)]
    have := ha j
    split_ifs <;> omega

/-- Within 2113928018 FE_REDUCE does not overflow: pass 1, the nine links and the last fold in turn. -/
theorem feReduce_noOvf {a : LimbVec} (ha : a.Within 2113928018) : (feReduce a).2 = false := by
  have hready : (pass2Chain (pass1 ⟨a, false⟩)).ReadyAt 9 :=
    ((((((((pass1_readyAt ha).link 0).link 1).link 2).link 3).link 4).link 5).link 6).link 7 |>.link 8
  obtain ⟨hovf, hwithin, -⟩ := hready
  exact (congrArg Work.ovf (foldTop_exact (hwithin 0) (hwithin 9))).trans hovf

/-! ### The carries (42_reduce.md R149) -/

section
variable (a : LimbVec)

theorem carries_zero :
    (exactReduce a).carries.get 0 = exactCarry 0 (a.get 0 + 19 * (exactReduce a).foldCarry) := rfl

/-- Limbs 1 to 8 in turn, each with the carry of the limb before it. -/
theorem carries_succ (i : Fin 8) :
    (exactReduce a).carries.get i.succ.castSucc =
      exactCarry i.succ.castSucc (a.get i.succ.castSucc + (exactReduce a).carries.get i.castSucc.castSucc) := by
  fin_cases i <;> rfl

theorem carries_nine :
    (exactReduce a).carries.get 9 =
      exactCarry 9 (a.get 9 - 33554432 * (exactReduce a).foldCarry + (exactReduce a).carries.get 8) := rfl

theorem foldCarry_eq : (exactReduce a).foldCarry = exactCarry 9 (a.get 9) := rfl

end

/-- The largest carry out of a limb within the bound of R149: 31 from an even limb, 62 from an odd one. -/
def carryBound (i : Fin 10) : Int := if i.val % 2 = 0 then 31 else 62

theorem carryBound_cases (i : Fin 10) :
    (width i = 26 ∧ half i = 33554432 ∧ carryBound i = 31) ∨
      (width i = 25 ∧ half i = 16777216 ∧ carryBound i = 62) := by
  by_cases h : i.val % 2 = 0
  · left; simp [width, half, carryBound, h]
  · right; simp [width, half, carryBound, h]

/-- A limb within the bound of R149 to which a carry or 19 carries of limb 9 were added. -/
theorem exactCarry_le_carryBound (i : Fin 10) {x d : Int} (hx : -2080374784 ≤ x ∧ x ≤ 2080374784)
    (hd : -1178 ≤ d ∧ d ≤ 1178) : -carryBound i ≤ exactCarry i (x + d) ∧ exactCarry i (x + d) ≤ carryBound i := by
  rcases carryBound_cases i with ⟨hw, hh, hb⟩ | ⟨hw, hh, hb⟩ <;> norm_num [exactCarry, hw, hh, hb] <;> omega

section
variable {a : LimbVec} (ha : a.Within 2080374784)
include ha

theorem foldCarry_range : -62 ≤ (exactReduce a).foldCarry ∧ (exactReduce a).foldCarry ≤ 62 := by
  simpa [foldCarry_eq, carryBound] using exactCarry_le_carryBound 9 (ha 9) (d := 0) (by decide)

/-- Along the chain each carry meets the bound of its limb. -/
theorem carries_range_of_lt_nine (i : Fin 9) :
    -carryBound i.castSucc ≤ (exactReduce a).carries.get i.castSucc ∧
      (exactReduce a).carries.get i.castSucc ≤ carryBound i.castSucc := by
  induction i using Fin.induction with
  | zero =>
    have hfold := foldCarry_range ha
    exact carries_zero a ▸ exactCarry_le_carryBound 0 (ha 0) (by omega)
  | succ i ih =>
    have hprev : -1178 ≤ (exactReduce a).carries.get i.castSucc.castSucc ∧
        (exactReduce a).carries.get i.castSucc.castSucc ≤ 1178 := by
      rcases carryBound_cases i.castSucc.castSucc with ⟨-, -, hb⟩ | ⟨-, -, hb⟩ <;> omega
    exact carries_succ a i ▸ exactCarry_le_carryBound i.succ.castSucc (ha _) hprev

/-- The second carry of limb 9 comes from a settled limb and one carry of limb 8. -/
theorem topCarry_range : -1 ≤ (exactReduce a).carries.x9 ∧ (exactReduce a).carries.x9 ≤ 1 := by
  have hrem : -16777216 ≤ a.get 9 - (exactReduce a).foldCarry * 33554432 ∧
      a.get 9 - (exactReduce a).foldCarry * 33554432 < 16777216 := exactCarry_remainder 9 (a.get 9)
  have h8 : -31 ≤ (exactReduce a).carries.get 8 ∧ (exactReduce a).carries.get 8 ≤ 31 :=
    carries_range_of_lt_nine ha 8
  have h9 : (exactReduce a).carries.x9 =
      (a.get 9 - 33554432 * (exactReduce a).foldCarry + (exactReduce a).carries.get 8 + 16777216) / 33554432 :=
    carries_nine a
  omega

theorem carries_range (i : Fin 10) :
    -carryBound i ≤ (exactReduce a).carries.get i ∧ (exactReduce a).carries.get i ≤ carryBound i := by
  refine Fin.lastCases ?_ (carries_range_of_lt_nine ha) i
  have htop := topCarry_range ha
  exact ⟨show -62 ≤ (exactReduce a).carries.x9 by omega, show (exactReduce a).carries.x9 ≤ 62 by omega⟩

end

/-- Settles O33: the carries meet the bound of their limb's parity, and the vector just past the largest uniform bound overflows. -/
theorem reduceNoOverflowBound : Obligations.ReduceNoOverflowBound := by
  refine ⟨fun a ha => ⟨feReduce_noOvf (within_mono ha (by decide)), foldCarry_range ha, fun i hi => ?_,
    fun i hi => ?_, topCarry_range ha⟩, fun _ => feReduce_noOvf, by decide +kernel⟩
  all_goals
    have hrange := carries_range ha i
    simpa [carryBound, hi] using hrange

/-! ### The output (42_reduce.md R148) -/

/-- A limb that its carry was taken from is settled. -/
theorem settled_of_carried {i : Fin 10} {x y : Int} (h : x = y - (2 ^ width i : Nat) * exactCarry i y) :
    -half i ≤ x ∧ x < half i := by
  rw [h, mul_comm]
  exact exactCarry_remainder i y

/-- The limbs of a reduction above limb 0 are settled. -/
theorem exactReduce_settled (a : LimbVec) {i : Fin 10} (hi : i ≠ 0) :
    -half i ≤ (exactReduce a).limbs.get i ∧ (exactReduce a).limbs.get i < half i := by
  fin_cases i
  · exact absurd rfl hi
  all_goals exact settled_of_carried rfl

/-- Limb 0 is settled but for the fold of c_9 after its carry (90_conflicts.md C3). -/
theorem exactReduce_limb_zero (a : LimbVec) :
    -half 0 ≤ (exactReduce a).limbs.x0 - 19 * (exactReduce a).carries.x9 ∧
      (exactReduce a).limbs.x0 - 19 * (exactReduce a).carries.x9 < half 0 :=
  settled_of_carried (add_sub_cancel_right _ _)

section
variable {a : LimbVec} (ha : a.Within 2080374784)
include ha

/-- Within the bound of R149 FE_REDUCE's limbs are those of the exact reduction. -/
theorem feReduce_limbs : (feReduce a).1 = (exactReduce a).limbs :=
  reduceComputesTheExactCarryChain a (fun i => by have := ha i; omega) (feReduce_noOvf (within_mono ha (by decide)))

theorem feReduce_settled {i : Fin 10} (hi : i ≠ 0) :
    -half i ≤ (feReduce a).1.get i ∧ (feReduce a).1.get i < half i :=
  feReduce_limbs ha ▸ exactReduce_settled a hi

theorem feReduce_limb_zero : -33554451 ≤ (feReduce a).1.get 0 ∧ (feReduce a).1.get 0 ≤ 33554450 := by
  have hzero : -33554432 ≤ (exactReduce a).limbs.x0 - 19 * (exactReduce a).carries.x9 ∧
      (exactReduce a).limbs.x0 - 19 * (exactReduce a).carries.x9 < 33554432 := exactReduce_limb_zero a
  have htop := topCarry_range ha
  have hget : (feReduce a).1.get 0 = (exactReduce a).limbs.x0 := congrArg (Limbs.get · 0) (feReduce_limbs ha)
  omega

end

/-- Settles O32: the limbs above limb 0 are settled, and limb 0 is off by at most 19. -/
theorem reduceOutputBounds : Obligations.ReduceOutputBounds := by
  intro a ha
  have hzero := feReduce_limb_zero ha
  refine ⟨fun i hi => ?_, fun i hi hne => ?_, ⟨by omega, by omega⟩, fun i => ?_⟩
  · have hlimb := feReduce_settled ha (i := i) fun h => by simp [h] at hi
    rw [half_of_odd hi] at hlimb
    omega
  · have hlimb := feReduce_settled ha hne
    rw [half_of_even hi] at hlimb
    omega
  · by_cases hne : i = 0
    · subst hne
      omega
    · have hlimb := feReduce_settled ha hne
      rcases half_cases i with ⟨-, hh⟩ | ⟨-, hh⟩ <;> omega

/-! ### Fixed points (42_reduce.md R150, R151) -/

theorem exactCarry_eq_zero_of_settled {a : LimbVec} (ha : a.Settled) (i : Fin 10) : exactCarry i (a.get i) = 0 :=
  exactCarry_of_settled (ha i).1 (ha i).2

theorem exactFold_of_settled {a : LimbVec} (ha : a.Settled) : exactFold a = a := by
  have h9 : exactCarry 9 a.x9 = 0 := exactCarry_eq_zero_of_settled ha 9
  simp [exactFold, h9]

theorem exactLinks_of_settled {a : LimbVec} (ha : a.Settled) (is : List (Fin 9)) : is.foldl exactLink a = a := by
  induction is with
  | nil => rfl
  | cons i is ih =>
    have hlink : exactLink a i = a := by simp [exactLink, exactCarry_eq_zero_of_settled ha]
    rw [List.foldl_cons, hlink, ih]

theorem within_of_settled {a : LimbVec} (ha : a.Settled) : a.Within 33554432 := by
  intro i
  have := ha i
  rcases half_cases i with ⟨-, hh⟩ | ⟨-, hh⟩ <;> omega

/-- A settled vector carries nothing, so every step leaves it (42_reduce.md R151). -/
theorem feReduce_of_settled {a : LimbVec} (ha : a.Settled) : feReduce a = (a, false) := by
  have hwithin : a.Within 2080374784 := within_mono (within_of_settled ha) (by decide)
  refine Prod.ext ?_ (feReduce_noOvf (within_mono hwithin (by decide)))
  rw [feReduce_limbs hwithin, (exactReduce_eq_steps a).1, exactChain, exactFold_of_settled ha,
    exactLinks_of_settled ha, exactFold_of_settled ha]

/-- Settles O35: settled vectors carry nothing; only the fold of c_9 can leave limb 0 unsettled, as in the example. -/
theorem reduceFixedPoints : Obligations.ReduceFixedPoints := by
  refine ⟨fun _ => feReduce_of_settled, fun a ha => ⟨fun i hi => feReduce_settled ha hi, fun hc9 i => ?_⟩,
    by decide +kernel⟩
  by_cases hi : i = 0
  · subst hi
    have hzero := exactReduce_limb_zero a
    rw [hc9, mul_zero, sub_zero] at hzero
    rw [feReduce_limbs ha]
    exact hzero
  · exact feReduce_settled ha hi

/-- The value of a vector within the output bounds is less than p in magnitude: the weighted half thresholds add up to less than p. -/
theorem value_lt_prime {x : LimbVec} (h : ∀ i, i ≠ 0 → -half i ≤ x.get i ∧ x.get i < half i)
    (h0 : -33554451 ≤ x.get 0 ∧ x.get 0 ≤ 33554450) : -prime < x.value ∧ x.value < prime := by
  have hall := forall_limb.mp h
  simp only [half, Limbs.get] at hall h0
  simp only [Limbs.value, prime, weight]
  norm_num at hall ⊢
  omega

/-- The least settled vector. -/
def leastSettled : LimbVec := Limbs.ofFn fun i => -half i

/-- The settled vector whose value lies p above that of the least. -/
def primeAboveLeast : LimbVec := (Limbs.ofFn fun i => half i - 1).set 0 (half 0 - 19)

/-- Settles O34: outputs are within the bounds of R148; two settled vectors lie p apart, and both are fixed points. -/
theorem reduceOutputIsNotCanonical : Obligations.ReduceOutputIsNotCanonical := by
  refine ⟨fun a ha => value_lt_prime (fun _ => feReduce_settled ha) (feReduce_limb_zero ha),
    leastSettled, primeAboveLeast, feReduce_of_settled ?_, feReduce_of_settled ?_, by decide, by decide⟩
  all_goals
    unfold Limbs.Settled
    decide

/-! ### Chains over reduced vectors (41_addsub.md R125) -/

/-- Settles O28: 63 bounds of 33554451 stay below 2^31, and 61 of them within the bound of R149. -/
theorem chainsOverReducedVectorsDoNotOverflow : Obligations.ChainsOverReducedVectorsDoNotOverflow := by
  intro x steps hx hsteps
  refine ⟨fun hlen => (addSubChain_within steps hx hsteps (by decide) (by omega)).1, fun hlen => ?_⟩
  have hwithin : (addSubChain x steps).1.Within 2080374784 :=
    within_mono (addSubChain_within steps hx hsteps (by decide) (by omega)).2 (by omega)
  exact ⟨hwithin, feReduce_noOvf (within_mono hwithin (by decide))⟩

/-! ### The REDUCE command (42_reduce.md R146) -/

theorem decodeCtrl_of_and_commandMask_reduce {v : Word} (h : v &&& 0x80000003#32 = 0x80000002#32) :
    decodeCtrl v = .reduce := by
  rw [← decodeCtrl_and_commandMask, h]
  decide

theorem half_range (i : Fin 10) : 0 < half i ∧ half i ≤ 33554432 := by
  rcases half_cases i with ⟨-, hh⟩ | ⟨-, hh⟩ <;> omega

/-- At the half threshold a limb carries 1 (42_reduce.md R146). -/
theorem carryStep_carry_of_half {w : Work} {i : Fin 10} (h : w.x.get i = half i) : (carryStep w i).2 = 1 := by
  have hhalf := half_range i
  rw [carryStep_exact w i (by omega) (by omega), h]
  rcases half_cases i with ⟨hw, hh⟩ | ⟨hw, hh⟩ <;> norm_num [exactCarry, hw, hh]

/-- At minus the half threshold a limb carries nothing (42_reduce.md R146). -/
theorem carryStep_carry_of_neg_half {w : Work} {i : Fin 10} (h : w.x.get i = -half i) : (carryStep w i).2 = 0 := by
  have hhalf := half_range i
  rw [carryStep_exact w i (by omega) (by omega)]
  exact exactCarry_of_settled (by omega) (by omega)

/-- The largest limb 9 overflows in pass 1, where its half threshold is added (42_reduce.md R146). -/
theorem feReduce_ovf_of_max_limb9 {a : LimbVec} (h : a.get 9 = 0x7FFFFFFF) : (feReduce a).2 = true := by
  by_contra hnot
  obtain ⟨hpass1, -⟩ := feReduce_noOvf_inv a (Bool.eq_false_iff.mpr hnot)
  have h9 : a.x9 = 2147483647 := h
  obtain ⟨-, hsum, -⟩ := foldTop_noOvf (w := ⟨a, false⟩) (by simp only; omega) hpass1
  simp only at hsum
  omega

/-- Settles O20: an idle block accepts REDUCE and completes with FE_REDUCE of A, a busy one drops it, and the corner cases are facts about FE_REDUCE. -/
theorem reduceCommand : Obligations.ReduceCommand := by
  refine ⟨fun _ => decodeCtrl_of_and_commandMask_reduce, rfl, fun s hidle => ?_,
    fun s hbusy => congrArg Host.Outcome.next (issue_of_busy _ hbusy), by decide +kernel,
    fun _ _ => carryStep_carry_of_half, fun _ _ => carryStep_carry_of_neg_half, by decide +kernel, by decide +kernel,
    fun _ _ => feReduce_ovf_of_max_limb9, by decide +kernel⟩
  obtain ⟨hbusy, hdone⟩ := issue_of_idle_flags (op := 0b10#2) hidle (by decide)
  exact ⟨_, exec_reduce s, hbusy, hdone, unitTurn_issue_of_idle hidle (by decide) rfl⟩

end Sys2Proof.Machine
end

section
/-! Host programs (30_encoding.md R88 to R90; log 10): one rule for each line that a turn of the host can be at, and from them what the pseudo-instructions do to the block. -/

namespace Sys2Proof.Machine

/-! ### Turns of the host, by line (30_encoding.md R88) -/

section
variable {h : HostRun}

/-- A host turn at a `WR` line whose value is known. -/
theorem turn_wr {g : Reg} {y : HostValue} {v : Word} {s t : State} (hl : h.program[h.line]? = some (.wr g y))
    (hv : h.value y = some v) (ha : busWrite g.off v { s with response := some .ack } = .next t) :
    System.turn .host ⟨h, s⟩ = .next ⟨h.advance, t⟩ := by
  simp [System.turn, HostRun.move, hl, hv, ha, HostRun.answered]

/-- A host turn at a label. -/
theorem turn_label {l : Nat} (s : State) (hl : h.program[h.line]? = some (.label l)) :
    System.turn .host ⟨h, s⟩ = .next ⟨h.advance, s⟩ := by
  simp [System.turn, HostRun.move, hl]

/-- A host turn at a `BNZ` line whose variable is known. -/
theorem turn_bnz {x l : Nat} {k : Fin 32} {v : Word} {h' : HostRun} (s : State)
    (hl : h.program[h.line]? = some (.bnz x k l)) (hv : h.lookup x = some v)
    (hb : h.branch v[k.val] l = some h') : System.turn .host ⟨h, s⟩ = .next ⟨h', s⟩ := by
  simp [System.turn, HostRun.move, hl, hv, hb]

/-- A variable has the value that was assigned last. -/
theorem lookup_assign (x : Nat) (v : Word) : (h.assign x v).lookup x = some v := by
  simp [HostRun.lookup, HostRun.assign]

/-- A variable that was assigned, and always one value, has that value. -/
theorem lookup_eq_of_unique {x : Nat} {v : Word} (hmem : (x, v) ∈ h.vars)
    (hunique : ∀ xv ∈ h.vars, xv.1 = x → xv.2 = v) : h.lookup x = some v := by
  cases hfind : h.vars.find? (fun xv => xv.1 == x) with
  | none => simpa using List.find?_eq_none.mp hfind _ hmem
  | some xv =>
    have hkey : xv.1 = x := by simpa using List.find?_some hfind
    simp [HostRun.lookup, hfind, hunique xv (List.mem_of_find?_eq_some hfind) hkey]

end

/-! ### FADD, FSUB, FRED, FSETOP, FCLR (30_encoding.md R89) -/

/-- The one turn of a program that is one `WR` line. -/
theorem turn_single_wr {p : List HostLine} {g : Reg} {v : Word} {s t : State} (hp : p = [.wr g (.lit v)])
    (ha : busWrite g.off v { s with response := some .ack } = .next t) :
    System.turn .host ⟨HostRun.start p, s⟩ = .next ⟨⟨p, 1, []⟩, t⟩ := by
  subst hp
  exact turn_wr rfl rfl ha

/-- A program that is one write of a command word to CTRL runs that command. -/
theorem turn_single_command {p : List HostLine} {v : Word} {i : Instr} (s : State) (hp : p = [.wr .ctrl (.lit v)])
    (hform : decodeCtrl v = i) : ∃ t, exec i { s with response := some .ack } = .next t ∧
      System.turn .host ⟨HostRun.start p, s⟩ = .next ⟨⟨p, 1, []⟩, t⟩ := by
  subst hform
  have hexec := exec_decodeCtrl v { s with response := some .ack }
  exact ⟨_, hexec, turn_single_wr hp hexec⟩

/-- FCLR's word has the three clear bits. -/
theorem statusWrite_fclr (s : State) :
    statusWrite 0x0000001C#32 s = { s with ovf := false, ill := false, busyErr := false } := by
  rw [statusWrite_eq_ite]
  rfl

/-- Settles O57: each expansion is one write, of the form's own word to CTRL or of the three clear bits to STATUS. -/
theorem pseudoInstructionsRunTheirCommands : Obligations.PseudoInstructionsRunTheirCommands := by
  refine fun s => ⟨turn_single_command s rfl (decodeCtrl_encode .add),
    turn_single_command s rfl (decodeCtrl_encode .sub), turn_single_command s rfl (decodeCtrl_encode .reduce),
    fun k => turn_single_command s rfl (decodeCtrl_encode (.setop k)), turn_single_wr rfl ?_⟩
  rw [busWrite_status, statusWrite_fclr]

/-! ### FWAIT (30_encoding.md R89) -/

/-- Bit 0 of STATUS is BUSY (10_state.md R29). -/
theorem status_bit_busy (s : State) : (readReg .status s)[0] = s.busy := by
  have hbit : ∀ busyErr ill ovf done busy : Bool, (statusPattern busyErr ill ovf done busy)[0] = busy := by decide
  exact hbit s.busyErr s.ill s.ovf s.done s.busy

/-- FWAIT's branch goes back to its label, the first line, or on past its last. -/
theorem branch_fwait (x w : Nat) (vars : List (Nat × Word)) (busy : Bool) :
    HostRun.branch ⟨expand (.fwait x w), 2, vars⟩ busy w =
      some ⟨expand (.fwait x w), if busy = true then 0 else 3, vars⟩ := by
  have hlabel : labelLine (expand (.fwait x w)) w = some 0 := by simp [labelLine, expand, List.findIdx?_cons]
  cases busy with
  | false => rfl
  | true => simp [HostRun.branch, hlabel]

/-- Settles O59: the label, the read of STATUS, and the branch on the bit of it that is BUSY. -/
theorem fwaitLoopsWhileBusy : Obligations.FwaitLoopsWhileBusy := by
  intro s x w
  have hbranch := branch_fwait x w [(x, readReg .status s)] s.busy
  have hlookup : HostRun.lookup ⟨expand (.fwait x w), 2, [(x, readReg .status s)]⟩ x = some (readReg .status s) :=
    lookup_assign (h := ⟨expand (.fwait x w), 2, []⟩) x _
  refine (run_cons _ (turn_label s rfl)).trans ((run_cons _ (turn_rd (g := .status) (x := x) s rfl)).trans ?_)
  exact run_cons [] (turn_bnz (k := 0) _ rfl hlookup ((status_bit_busy s).symm ▸ hbranch))

/-! ### FMOVRA (30_encoding.md R89) -/

theorem get_foldl_set {α : Type} (f : Fin 10 → α) (is : List (Fin 10)) (x : Limbs α) (j : Fin 10) :
    (is.foldl (fun x i => x.set i (f i)) x).get j = if j ∈ is then f j else x.get j := by
  induction is generalizing x with
  | nil => simp
  | cons i is ih =>
    rw [List.foldl_cons, ih, Limbs.get_set]
    by_cases hj : j = i
    · subst hj
      simp
    · simp [hj]

/-- Setting every limb, in any order, to that of y makes y. -/
theorem foldl_set_eq_of_all {α : Type} {is : List (Fin 10)} (hall : ∀ j, j ∈ is) (x y : Limbs α) :
    is.foldl (fun x i => x.set i (y.get i)) x = y := by
  refine Limbs.ext_get fun j => ?_
  rw [get_foldl_set y.get, if_pos (hall j)]

theorem mem_limbOrder : ∀ j, j ∈ limbOrder := by decide

/-- The lines of FMOVRA for one limb: R[i] is read into t and written to A[i]. -/
def moveLimb (t : Nat) (i : Fin 10) : List HostLine := [.rd (.r i) t, .wr (.a i) (.var t)]

/-- The lines of FMOVRA for the limbs `is`, from any line of a program on, copy these limbs of R. -/
theorem run_moveLimb_lines (t : Nat) (is : List (Fin 10)) (h : HostRun) (s : State)
    (hp : ∃ q, h.program = q ++ is.flatMap (moveLimb t) ∧ q.length = h.line) :
    ∃ h', System.run (List.replicate (2 * is.length) .host) ⟨h, s⟩ =
      .next ⟨h', { s with
        a := is.foldl (fun a i => a.set i (s.r.get i)) s.a
        response := if is = [] then s.response else some .ack }⟩ := by
  induction is generalizing h s with
  | nil => exact ⟨h, rfl⟩
  | cons i is ih =>
    obtain ⟨q, hq, hl⟩ := hp
    have hread := turn_rd (g := .r i) (x := t) s (show h.program[h.line]? = _ by simp [hq, ← hl, moveLimb])
    have hwrite := turn_wr (h := (h.assign t (s.r.get i)).advance) (g := .a i) (y := .var t)
      (s := { s with response := some (.data (s.r.get i)) })
      (by simp [HostRun.advance, HostRun.assign, hq, ← hl, moveLimb]) (lookup_assign t (s.r.get i))
      (busWrite_a i (s.r.get i) _)
    obtain ⟨h', hrest⟩ := ih (h.assign t (s.r.get i)).advance.advance
      { s with response := some .ack, a := s.a.set i (s.r.get i) }
      ⟨q ++ moveLimb t i, by simp [HostRun.advance, HostRun.assign, hq],
        by simp [HostRun.advance, HostRun.assign, hl, moveLimb]⟩
    refine ⟨h', ?_⟩
    rw [List.length_cons, Nat.mul_succ, List.replicate_succ, List.replicate_succ, run_cons _ hread]
    refine (run_cons _ hwrite).trans ?_
    rw [hrest]
    simp

/-- Settles O58: the twenty lines copy the limbs of R one after another, and these are all of A. -/
theorem fmovraCopiesTheResult : Obligations.FmovraCopiesTheResult := by
  intro s t
  obtain ⟨h, hrun⟩ := run_moveLimb_lines t limbOrder (HostRun.start (expand (.fmovra t))) s ⟨[], rfl, rfl⟩
  rw [foldl_set_eq_of_all mem_limbOrder] at hrun
  exact ⟨h, hrun⟩

/-! ### FLDA, FLDB and FRDR in any order (30_encoding.md R90) -/

/-- A write does not depend on the response to the access before it. -/
theorem performAll_writes_acked (f : Fin 10 → Reg) (v : Fin 10 → Word) {order : List (Fin 10)} (hne : order ≠ [])
    (s : State) :
    performAll (order.map fun i => .access (wrAccess (f i) (v i))) s =
      performAll (order.map fun i => .access (wrAccess (f i) (v i))) { s with response := some .ack } := by
  cases order with
  | nil => exact absurd rfl hne
  | cons i is => simp [performAll]

/-- Ten writes in any order, of which each sets its limb of a register file: they make the file equal to the operand. -/
theorem performAll_load {f : Fin 10 → Reg} {put : LimbFile → State}
    (hput : ∀ y i v, hostAccess (wrAccess (f i) v) (put y) = .next (put (y.set i v))) (x y : LimbFile)
    {order : List (Fin 10)} (horder : order.Perm limbOrder) {s : State}
    (hstart : { s with response := some .ack } = put y) :
    performAll (order.map fun i => .access (wrAccess (f i) (x.get i))) s = .next (put x) := by
  have hwrites : ∀ (is : List (Fin 10)) (y : LimbFile),
      performAll (is.map fun i => .access (wrAccess (f i) (x.get i))) (put y) =
        .next (put (is.foldl (fun y i => y.set i (x.get i)) y)) := fun is => by
    induction is with
    | nil => exact fun y => rfl
    | cons i is ih =>
      intro y
      have hperform : perform (.access (wrAccess (f i) (x.get i))) (put y) = .next (put (y.set i (x.get i))) :=
        hput y i _
      exact (performAll_cons _ hperform).trans (ih _)
  have hall : ∀ j, j ∈ order := fun j => horder.mem_iff.mpr (mem_limbOrder j)
  rw [performAll_writes_acked f x.get (List.ne_nil_of_mem (hall 0)), hstart, hwrites, foldl_set_eq_of_all hall]

section
variable (x : LimbFile) {order : List (Fin 10)} (horder : order.Perm limbOrder) (s : State)
include horder

/-- FLDA's writes, in any order, make A equal to the operand. -/
theorem performAll_load_a :
    performAll (order.map fun i => .access (wrAccess (.a i) (x.get i))) s =
      .next { s with a := x, response := some .ack } :=
  performAll_load (put := fun y => { s with a := y, response := some .ack }) (fun y i v => by simp) x s.a horder rfl

/-- FLDB's writes, in any order, make B equal to the operand. -/
theorem performAll_load_b :
    performAll (order.map fun i => .access (wrAccess (.b i) (x.get i))) s =
      .next { s with b := x, response := some .ack } :=
  performAll_load (put := fun y => { s with b := y, response := some .ack }) (fun y i v => by simp) x s.b horder rfl

/-- A host program of ten writes performs them. -/
theorem run_load {f : Fin 10 → Reg} {t : State}
    (h : performAll (order.map fun i => .access (wrAccess (f i) (x.get i))) s = .next t) :
    System.run (List.replicate 10 .host) ⟨HostRun.start (order.map fun i => .wr (f i) (.lit (x.get i))), s⟩ =
      .next ⟨⟨order.map fun i => .wr (f i) (.lit (x.get i)), 10, []⟩, t⟩ := by
  have hlength : order.length = 10 := horder.length_eq
  have hrun := run_wr_lines f x.get order (HostRun.start _) s t ⟨[], rfl, rfl⟩ h
  rw [hlength] at hrun
  exact hrun

/-- A host program of ten reads of R changes only the response, and assigns the limbs in the order of its lines. -/
theorem run_read (names : Limbs Nat) :
    ∃ q, System.run (List.replicate 10 .host) ⟨HostRun.start (order.map fun i => .rd (.r i) (names.get i)), s⟩ =
      .next ⟨⟨order.map fun i => .rd (.r i) (names.get i), 10,
        (order.map fun i => (names.get i, s.r.get i)).reverse⟩, { s with response := some (.data q) }⟩ := by
  have hlength : order.length = 10 := horder.length_eq
  have hne : order ≠ [] := fun h => by simp [h] at hlength
  obtain ⟨q, hrun, hdata⟩ := run_rd_lines names order (HostRun.start _) s ⟨[], rfl, rfl⟩
  obtain ⟨w, rfl⟩ := hdata hne
  rw [hlength] at hrun
  exact ⟨w, by simpa [HostRun.start] using hrun⟩

/-- Where no two limbs share a variable, each variable holds its limb of R. -/
theorem lookup_read {names : Limbs Nat} (hnames : ∀ i j, names.get i = names.get j → i = j) (p : List HostLine)
    (n : Nat) (i : Fin 10) :
    HostRun.lookup ⟨p, n, (order.map fun i => (names.get i, s.r.get i)).reverse⟩ (names.get i) =
      some (s.r.get i) := by
  have hi : i ∈ order := horder.mem_iff.mpr (mem_limbOrder i)
  refine lookup_eq_of_unique (List.mem_reverse.mpr (List.mem_map.mpr ⟨i, hi, rfl⟩)) fun xv hxv hkey => ?_
  obtain ⟨j, -, rfl⟩ := List.mem_map.mp (List.mem_reverse.mp hxv)
  rw [hnames j i hkey]

end

/-- Settles O56: the writes set every limb whatever their order, the reads give every variable its limb, and the expansions are these programs in limb order. -/
theorem loadOrderIsFree : Obligations.LoadOrderIsFree := by
  refine ⟨fun x order s horder => ⟨performAll_load_a x horder s, performAll_load_b x horder s⟩,
    fun x names => ⟨rfl, rfl, rfl⟩, fun x names order s horder =>
      ⟨run_load x horder s (performAll_load_a x horder s), run_load x horder s (performAll_load_b x horder s), ?_⟩⟩
  obtain ⟨q, hrun⟩ := run_read horder s names
  exact ⟨_, q, hrun, rfl, fun hnames => lookup_read horder s hnames _ 10⟩

end Sys2Proof.Machine
end
